-- ==== Sys2Proof/Word.lean ====
section
/-! DEFINITION. The words of the machine: a byte, a 9-bit program counter value, the 3-bit flags register and a
register index (spec 00_scope.md R5, R6). Every value is unsigned. -/

namespace Sys2Proof

/-- A byte, 0 to 255: a register, a memory cell, an operand (R5 `BYTE`, R21, R61). -/
abbrev Byte := BitVec 8

/-- A 9-bit value: the program counter, and the fault record's `fpc` and `info` (R26, R32, R35). -/
abbrev Word9 := BitVec 9

/-- The 3-bit flags register (R29). -/
abbrev FlagBits := BitVec 3

/-- A register index, 0 to 7 (R21, R24). -/
abbrev RegIx := Fin 8

/-- `zext_9(v)`: a byte zero-extended to 9 bits (R7). -/
abbrev zext9 (v : Byte) : Word9 := v.setWidth 9

end Sys2Proof
end

