-- ==== Sys2Proof/Config.lean ====
section
/-! DEFINITION. The implementation parameters of spec 00_scope.md R5. All are fixed by the spec but the two OPEN reset
values, for which State.reset takes the values named here (log entries 1 and 2) and State.resetWith an argument. -/

namespace Sys2Proof.Config

/-- `MEM_SIZE`: 256 bytes, addresses 0 to 255 (R5, R60). -/
abbrev memSize : Nat := 256

/-- What a byte of memory that nothing has written reads as: reset fills memory with 0 (10_state.md R40). -/
abbrev memReset : Byte := 0

/-- `SP_INDEX`: R7 is the stack pointer (R5, R22). -/
abbrev spIndex : RegIx := 7

/-- `SP_RESET`: R7's reset value (R5, R42). -/
abbrev spReset : Byte := 0xF4

/-- `STACK_TOP`: POP at or above this value of R7 faults (R5, R112). -/
abbrev stackTop : Byte := 0xF4

/-- `PC_RESET` (R5, R43). -/
abbrev pcReset : Word9 := 0

/-- DESIGN CHOICE (log entry 1), unsafe: the value State.reset gives R0 to R6. The spec leaves it OPEN (`init_gpr`,
R41); statements about reset are made of State.resetWith, for every value. -/
abbrev initGpr : Vector Byte 7 := #v[0, 0, 0, 0, 0, 0, 0]

/-- DESIGN CHOICE (log entry 2), unsafe: the value State.reset gives the flags register. The spec leaves it OPEN
(`init_fl`, R44); statements about reset are made of State.resetWith, for every value. -/
abbrev initFl : FlagBits := 0

end Sys2Proof.Config
end

