-- ==== Sys2Proof/Machine/State.lean ====
section
/-! DEFINITION. The state of the machine: every row of spec 10_state.md R20, as plain data, and the state at reset
(R40 to R46, 70_reset_and_hazards.md R180). -/

namespace Sys2Proof.Machine

/-- The run state (10_state.md R31). -/
inductive RunState where
  /-- The core executes instructions. -/
  | running
  /-- HLT has executed. Terminal. -/
  | halted
  /-- A fatal error has occurred. Terminal. -/
  | faulted
  deriving DecidableEq, Repr

/-- The kinds of fatal error (60_exceptions.md R151). -/
inductive FaultKind where
  /-- Code 1: an opcode byte not of R87 with bit 5 clear. -/
  | invalidInstruction
  /-- Code 2: an opcode byte not of R87 with bit 5 set. -/
  | unsupportedOperation
  /-- Code 3: a memory access at an address above 255. -/
  | outOfRange
  /-- Code 4: a register operand byte of 8 or more. -/
  | invalidRegister
  /-- Code 5: PUSH with R7 = 0. -/
  | stackOverflow
  /-- Code 6: POP with R7 at or above 0xF4. -/
  | stackUnderflow
  deriving DecidableEq, Repr

/-- The fault record (10_state.md R32). -/
structure FaultRecord where
  /-- The kind of fatal error. -/
  kind : FaultKind
  /-- The address of the faulting instruction's opcode. -/
  fpc : Word9
  /-- The offending value. -/
  info : Word9
  deriving DecidableEq, Repr

/-- The state of the system (10_state.md R20). -/
structure State where
  /-- The general registers R0 to R7 (R21). -/
  x : Vector Byte 8
  /-- The program counter, 0 to 256 (R26). -/
  pc : Word9
  /-- The flags register: bit 0 E, bit 1 G, bit 2 L (R29). -/
  fl : FlagBits
  /-- The run state, the spec's `state` (R31). -/
  run : RunState
  /-- The fault record; empty unless the run state is Faulted (R32, R20). -/
  fault : Option FaultRecord
  /-- The 256 bytes of memory: (address, byte) pairs, addresses rising, no byte equal to Config.memReset
  (20_memory.md R60; Memory.wf states the form). -/
  mem : List Host.Cell
  /-- The bytes PRN has emitted, oldest first (R33). -/
  out : List Byte
  deriving DecidableEq, Repr

/-- Why a step gives no next state. The spec's fatal errors are not here: each has an effect (60_exceptions.md R152),
so it is a next state with run state Faulted and a fault record. -/
inductive Fault where
  /-- Raised by `step` in run state Halted: "In either one the core makes no step" (10_state.md R31). Safe: the model
  stops where the hardware stops (log entry 3). -/
  | noStepHalted
  /-- Raised by `step` in run state Faulted, by the same rule. Safe (log entry 3). -/
  | noStepFaulted
  deriving DecidableEq, Repr

/-- Why an instruction is refused. -/
inductive Refusal where
  /-- An instruction without a meaning, raised by an arm of `exec` only. Safe. No arm raises it: all eleven
  instructions have their meaning. -/
  | notModelled (mnemonic : String)
  deriving DecidableEq, Repr

/-- The state at reset, given the OPEN parameters: the values of R0 to R6 (`init_gpr`, R41) and of the flags register
(`init_fl`, R44). R7 is 0xF4 (R42), pc 0 (R43), the run state Running with no fault and no output (R45), every byte of
memory 0 (R40). -/
def State.resetWith (gpr : Vector Byte 7) (fl : FlagBits) : State where
  x := gpr.push Config.spReset
  pc := Config.pcReset
  fl := fl
  run := .running
  fault := none
  mem := []
  out := []

/-- The machine right after reset, with nothing loaded (R180 steps 1 to 3). R0 to R6 and the flags register take the
values Config names (DESIGN CHOICE, log entries 1 and 2). -/
def State.reset : State := State.resetWith Config.initGpr Config.initFl

end Sys2Proof.Machine
end

