-- ==== Sys2Proof/Machine/Ops.lean ====
section
/-! DEFINITION. The named operations on registers, memory, the program counter and the output, and the one operation
that takes a fatal error. -/

namespace Sys2Proof.Machine

/-! ## Memory as data -/

/-- The byte at an address; an address not listed holds its reset value 0 (10_state.md R40, 20_memory.md R70). -/
def Memory.read : List Host.Cell → Nat → Byte
  | [], _ => Config.memReset
  | c :: m, addr => if c.1 = addr then c.2 else Memory.read m addr

/-- The memory without an entry for an address. -/
def Memory.erase (m : List Host.Cell) (addr : Nat) : List Host.Cell := m.filter (fun c => c.1 ≠ addr)

/-- Puts an entry in its place by address. -/
def Memory.insert : List Host.Cell → Nat → Byte → List Host.Cell
  | [], addr, v => [(addr, v)]
  | c :: m, addr, v => if addr < c.1 then (addr, v) :: c :: m else c :: Memory.insert m addr v

/-- Stores a byte: the old entry goes, and a byte that an unlisted address reads as is not listed. -/
def Memory.write (m : List Host.Cell) (addr : Nat) (v : Byte) : List Host.Cell :=
  if v = Config.memReset then Memory.erase m addr else Memory.insert (Memory.erase m addr) addr v

/-- The canonical form: addresses strictly rising and inside the memory, no entry equal to what an unlisted address
reads as. -/
abbrev Memory.wf (m : List Host.Cell) : Prop :=
  m.Pairwise (fun c d => c.1 < d.1) ∧ ∀ c ∈ m, c.1 < Config.memSize ∧ c.2 ≠ Config.memReset

/-! ## Fatal errors -/

/-- What an instruction raises: `raise kind(info)` (00_scope.md R7). -/
structure Raise where
  /-- The kind of fatal error. -/
  kind : FaultKind
  /-- The offending value that is recorded. -/
  info : Word9
  deriving DecidableEq, Repr

/-- Takes a fatal error: the run state becomes Faulted and the record holds the kind, the opcode's address (pc is
still p) and the offending value; nothing else changes (60_exceptions.md R152, 10_state.md R28). -/
def State.raise (s : State) (r : Raise) : State :=
  { s with run := .faulted, fault := some { kind := r.kind, fpc := s.pc, info := r.info } }

/-- Ends an instruction that began in state `s`: it takes effect as a whole, or it raises and none of its writes
happens (00_scope.md R8). -/
def commit (s : State) : Except Raise State → Host.Outcome State Fault Refusal
  | .ok t => .next t
  | .error r => .next (s.raise r)

/-! ## The memory port -/

/-- `OutOfRange(addr)` (20_memory.md R62). -/
def Raise.outOfRange (addr : Nat) : Raise := { kind := .outOfRange, info := BitVec.ofNat 9 addr }

/-- `MemRead(addr, 1)` (20_memory.md R62). The address is never reduced modulo 256. -/
def State.memRead (s : State) (addr : Nat) : Except Raise Byte :=
  if addr < Config.memSize then .ok (Memory.read s.mem addr) else .error (Raise.outOfRange addr)

/-- `MemWrite(addr, 1, v)` (20_memory.md R62). -/
def State.memWrite (s : State) (addr : Nat) (v : Byte) : Except Raise State :=
  if addr < Config.memSize then .ok { s with mem := Memory.write s.mem addr v }
  else .error (Raise.outOfRange addr)

/-! ## Registers -/

/-- `x[i]` (00_scope.md R7, 10_state.md R23). -/
def State.reg (s : State) (i : RegIx) : Byte := s.x[i]

/-- `x[i] <- v` (00_scope.md R7). No register is hard-wired (10_state.md R23). -/
def State.setReg (s : State) (i : RegIx) (v : Byte) : State := { s with x := s.x.set i v }

/-- The stack pointer, R7 (10_state.md R22). -/
def State.sp (s : State) : Byte := s.reg Config.spIndex

/-- Writes the stack pointer, R7. -/
def State.setSp (s : State) (v : Byte) : State := s.setReg Config.spIndex v

/-! ## Program counter, flags, run state, output -/

/-- `npc` = p + 1 + n, for an instruction of n operand bytes at p (10_state.md R27, 30_encoding.md R90). An
instruction that a step runs lies inside the memory (R91), so the sum is at most 256 (log entry 5). -/
def State.npc (s : State) (n : Nat) : Word9 := s.pc + BitVec.ofNat 9 (1 + n)

/-- `pc <- target`. -/
def State.setPc (s : State) (target : Word9) : State := { s with pc := target }

/-- `pc <- npc`, for an instruction of n operand bytes. -/
def State.advance (s : State) (n : Nat) : State := s.setPc (s.npc n)

/-- `fl <- v`. -/
def State.setFl (s : State) (v : FlagBits) : State := { s with fl := v }

/-- `state <- Halted` (10_state.md R31). -/
def State.halt (s : State) : State := { s with run := .halted }

/-- `emit(v)`: one more byte of output (10_state.md R33, R52). -/
def State.emit (s : State) (v : Byte) : State := { s with out := s.out ++ [v] }

/-- Writes consecutive bytes from an address up. A byte whose address is outside the memory is not written: there is
no such place (20_memory.md R60). -/
def Memory.writeList : List Host.Cell → Nat → List Byte → List Host.Cell
  | m, _, [] => m
  | m, addr, v :: vs =>
    Memory.writeList (if addr < Config.memSize then Memory.write m addr v else m) (addr + 1) vs

end Sys2Proof.Machine
end

