-- ==== Sys2Proof/Machine/Flags.lean ====
section
/-! DEFINITION. The flags register: its bits, CMP's new value of it, and the two branch conditions (10_state.md R29,
R30; 43_alu.md R133; 42_branch.md R121 to R123). -/

namespace Sys2Proof.Machine

/-- E, bit 0: the last CMP found equality (10_state.md R29). -/
def flagE (fl : FlagBits) : Bool := fl.getLsbD 0

/-- G, bit 1: the last CMP found x[a] > x[b] (10_state.md R29). -/
def flagG (fl : FlagBits) : Bool := fl.getLsbD 1

/-- L, bit 2: the last CMP found x[a] < x[b] (10_state.md R29). -/
def flagL (fl : FlagBits) : Bool := fl.getLsbD 2

/-- CMP's flags, from an unsigned comparison of two bytes (43_alu.md R133). -/
def cmpFlags (u v : Byte) : FlagBits :=
  if u = v then 0b001 else if u > v then 0b010 else 0b100

/-- JEQ is taken exactly if `fl[0]` = 1 (42_branch.md R121). -/
def jeqTaken (fl : FlagBits) : Bool := flagE fl

/-- JNE is taken exactly if `fl[0]` = 0 (42_branch.md R122). -/
def jneTaken (fl : FlagBits) : Bool := !flagE fl

end Sys2Proof.Machine
end

