-- ==== Sys2Proof/Syntax.lean ====
section
/-! DEFINITION. The instructions: one constructor for each row of spec/opcode_table.json (30_encoding.md R87). An
operand is the instruction's raw operand byte, `a` at p + 1 and `b` at p + 2, as R85 and R86 have it: "with operand_a,
operand_b as raw operand bytes". Whether a register operand is one of 0 to 7 is checked by WellFormed and, in the
machine, by R92's register check (log entry 6). -/

namespace Sys2Proof

/-- The eleven instructions (R87). -/
inductive Instr where
  /-- HLT: halt (R100). -/
  | hlt
  /-- LDI a, b: load the immediate `b` into register `a` (R101). -/
  | ldi (a b : Byte)
  /-- PRN a: emit register `a` on the output port (R102). -/
  | prn (a : Byte)
  /-- PUSH a: push register `a` (R110). -/
  | push (a : Byte)
  /-- POP a: pop into register `a` (R111). -/
  | pop (a : Byte)
  /-- JMP a: jump to the address in register `a` (R120). -/
  | jmp (a : Byte)
  /-- JEQ a: jump if the equal flag is set (R121). -/
  | jeq (a : Byte)
  /-- JNE a: jump if the equal flag is clear (R122). -/
  | jne (a : Byte)
  /-- ADD a, b: register `a` plus register `b` into `a` (R131). -/
  | add (a b : Byte)
  /-- MUL a, b: register `a` times register `b` into `a` (R132). -/
  | mul (a b : Byte)
  /-- CMP a, b: set the flags from registers `a` and `b` (R133). -/
  | cmp (a b : Byte)
  deriving DecidableEq, Repr

/-- The four instruction formats (R85). -/
inductive Format where
  /-- One byte: the opcode. -/
  | f0
  /-- Two bytes: the opcode and a register operand. -/
  | f1r
  /-- Three bytes: the opcode, a register operand and an immediate. -/
  | f2ri
  /-- Three bytes: the opcode and two register operands. -/
  | f2rr
  deriving DecidableEq, Repr

/-- The format of an instruction (R85, R87). -/
def Instr.format : Instr → Format
  | .hlt => .f0
  | .ldi _ _ => .f2ri
  | .prn _ => .f1r
  | .push _ => .f1r
  | .pop _ => .f1r
  | .jmp _ => .f1r
  | .jeq _ => .f1r
  | .jne _ => .f1r
  | .add _ _ => .f2rr
  | .mul _ _ => .f2rr
  | .cmp _ _ => .f2rr

/-- How many operand bytes a format has (R85). -/
def Format.operandCount : Format → Nat
  | .f0 => 0
  | .f1r => 1
  | .f2ri => 2
  | .f2rr => 2

/-- The register operand bytes that R92 checks, in its order: `a`, then `b`. LDI's immediate is none. -/
def Instr.regOperands : Instr → List Byte
  | .hlt => []
  | .ldi a _ => [a]
  | .prn a => [a]
  | .push a => [a]
  | .pop a => [a]
  | .jmp a => [a]
  | .jeq a => [a]
  | .jne a => [a]
  | .add a b => [a, b]
  | .mul a b => [a, b]
  | .cmp a b => [a, b]

/-- The mnemonic of an instruction (R87, R94). -/
def Instr.mnemonic : Instr → String
  | .hlt => "HLT"
  | .ldi _ _ => "LDI"
  | .prn _ => "PRN"
  | .push _ => "PUSH"
  | .pop _ => "POP"
  | .jmp _ => "JMP"
  | .jeq _ => "JEQ"
  | .jne _ => "JNE"
  | .add _ _ => "ADD"
  | .mul _ _ => "MUL"
  | .cmp _ _ => "CMP"

/-- A register operand in assembly: `R0` to `R7` (R94). -/
def registerText (a : Byte) : String := "R" ++ toString a.toNat

/-- An instruction in the assembly of R94: the mnemonic, then its operands separated by a comma; LDI's immediate in
decimal. Notation only: there is no assembler (92_eei_decisions.md D21). -/
def Instr.assembly (i : Instr) : String :=
  match i with
  | .hlt => i.mnemonic
  | .ldi a b => i.mnemonic ++ " " ++ registerText a ++ ", " ++ toString b.toNat
  | .prn a => i.mnemonic ++ " " ++ registerText a
  | .push a => i.mnemonic ++ " " ++ registerText a
  | .pop a => i.mnemonic ++ " " ++ registerText a
  | .jmp a => i.mnemonic ++ " " ++ registerText a
  | .jeq a => i.mnemonic ++ " " ++ registerText a
  | .jne a => i.mnemonic ++ " " ++ registerText a
  | .add a b => i.mnemonic ++ " " ++ registerText a ++ ", " ++ registerText b
  | .mul a b => i.mnemonic ++ " " ++ registerText a ++ ", " ++ registerText b
  | .cmp a b => i.mnemonic ++ " " ++ registerText a ++ ", " ++ registerText b

end Sys2Proof
end

