-- ==== Sys2Proof/WellFormed.lean ====
section
/-! DEFINITION. Well-formed instructions: every register operand names one of R0 to R7 (30_encoding.md R86, R92). An
immediate may be any byte. An ill-formed instruction is not meaningless: the machine raises InvalidRegister for it. -/

namespace Sys2Proof

/-- An operand byte that names a register: 0 to 7, the whole byte compared (R86, R24). -/
abbrev isRegByte (a : Byte) : Prop := a.toNat < 8

/-- Every register operand is 0 to 7 (R92). -/
abbrev WellFormed (i : Instr) : Prop := ∀ a ∈ i.regOperands, isRegByte a

end Sys2Proof
end

