-- ==== Sys2Proof/Decode.lean ====
section
/-! DEFINITION. Decode and encode, from the opcode map of spec 30_encoding.md R87. Decode is total on any list of
bytes and rejects by name. Every one of the opcode's 8 bits is compared (R84). -/

namespace Sys2Proof

/-- Why decode gives no instruction. -/
inductive DecodeError where
  /-- An opcode byte not of R87 with bit 5 clear (R88). -/
  | invalidInstruction (op : Byte)
  /-- An opcode byte not of R87 with bit 5 set: it would be routed to the ALU (R88). -/
  | unsupportedOperation (op : Byte)
  /-- The list ends before byte `k` of the instruction (0 the opcode, 1 operand_a, 2 operand_b). -/
  | missingByte (k : Nat)
  deriving DecidableEq, Repr

/-- The operand count field, bits 7:6 of the opcode (R81, R82). -/
def opcodeCount (op : Byte) : Nat := (op >>> 6).toNat

/-- The ALU bit, bit 5 of the opcode (R81, R83). -/
def opcodeAlu (op : Byte) : Bool := op.getLsbD 5

/-- The identity field, bits 4:0 of the opcode (R81). It does not identify an instruction by itself (R84). -/
def opcodeIdentity (op : Byte) : BitVec 5 := op.extractLsb' 0 5

/-- The eleven valid opcode bytes (R87). -/
def validOpcodes : List Byte :=
  [0x01, 0x82, 0x47, 0x45, 0x46, 0x54, 0x55, 0x56, 0xA0, 0xA2, 0xA7]

/-- A byte of R87's table. -/
def isOpcode (op : Byte) : Bool := validOpcodes.contains op

/-- The error of an illegal opcode byte, by its bit 5 (R88). -/
def illegalOpcode (op : Byte) : DecodeError :=
  if opcodeAlu op then .unsupportedOperation op else .invalidInstruction op

/-- How many operand bytes follow an opcode byte: its bits 7:6, and none for an illegal opcode, which faults before
its operand count is used (R82, R89). -/
def operandBytes (op : Byte) : Nat := if isOpcode op then opcodeCount op else 0

/-- An instruction of one operand byte, from the bytes after the opcode. -/
def takeOne (mk : Byte → Instr) : List Byte → Except DecodeError (Instr × List Byte)
  | [] => .error (.missingByte 1)
  | a :: rest => .ok (mk a, rest)

/-- An instruction of two operand bytes, from the bytes after the opcode. -/
def takeTwo (mk : Byte → Byte → Instr) : List Byte → Except DecodeError (Instr × List Byte)
  | [] => .error (.missingByte 1)
  | [_] => .error (.missingByte 2)
  | a :: b :: rest => .ok (mk a b, rest)

/-- Decode one instruction from the front of a list of bytes, with the bytes that are left (R80, R85, R87, R88). -/
def decode : List Byte → Except DecodeError (Instr × List Byte)
  | [] => .error (.missingByte 0)
  | op :: rest =>
    if op = 0x01 then .ok (.hlt, rest)
    else if op = 0x82 then takeTwo .ldi rest
    else if op = 0x47 then takeOne .prn rest
    else if op = 0x45 then takeOne .push rest
    else if op = 0x46 then takeOne .pop rest
    else if op = 0x54 then takeOne .jmp rest
    else if op = 0x55 then takeOne .jeq rest
    else if op = 0x56 then takeOne .jne rest
    else if op = 0xA0 then takeTwo .add rest
    else if op = 0xA2 then takeTwo .mul rest
    else if op = 0xA7 then takeTwo .cmp rest
    else .error (illegalOpcode op)

/-- The bytes of an instruction: opcode, operand_a, operand_b, in increasing address order (R65, R80, R87). -/
def encode : Instr → List Byte
  | .hlt => [0x01]
  | .ldi a b => [0x82, a, b]
  | .prn a => [0x47, a]
  | .push a => [0x45, a]
  | .pop a => [0x46, a]
  | .jmp a => [0x54, a]
  | .jeq a => [0x55, a]
  | .jne a => [0x56, a]
  | .add a b => [0xA0, a, b]
  | .mul a b => [0xA2, a, b]
  | .cmp a b => [0xA7, a, b]

/-- The three bytes of an instruction whose bits are `w`, numbered as spec/opcode_table.json numbers them: byte k is
bits 8k + 7 to 8k, and the bits from `nbits` up are 0. The first byte is the opcode and lies lowest (R65). -/
def tableBytes (nbits w : Nat) : List Byte :=
  let v := w % 2 ^ nbits
  [BitVec.ofNat 8 v, BitVec.ofNat 8 (v / 256), BitVec.ofNat 8 (v / 65536)]

/-- The instruction the decoder reads from an instruction whose bits are `w`. -/
def decodeTableWord (nbits w : Nat) : Option Instr :=
  match decode (tableBytes nbits w) with
  | .ok (i, _) => some i
  | .error _ => none

end Sys2Proof
end

