-- ==== Sys2Proof/Machine/Operands.lean ====
section
/-! DEFINITION. The operand forms: a register operand, checked, and the stack's one addressing mode, register-indirect
through R7 (30_encoding.md R86, R92; 41_stack.md). An immediate is the operand byte itself. -/

namespace Sys2Proof.Machine

/-- `InvalidRegister(a)`: the operand byte is recorded (60_exceptions.md R151). -/
def Raise.invalidRegister (a : Byte) : Raise := { kind := .invalidRegister, info := zext9 a }

/-- R92's check of a register operand: the whole byte must be 0 to 7. -/
def regOperand (a : Byte) : Except Raise RegIx :=
  if h : isRegByte a then .ok ⟨a.toNat, h⟩ else .error (Raise.invalidRegister a)

/-- `StackOverflow(x[7])` (41_stack.md R110). -/
def Raise.stackOverflow (sp : Byte) : Raise := { kind := .stackOverflow, info := zext9 sp }

/-- `StackUnderflow(x[7])` (41_stack.md R111). -/
def Raise.stackUnderflow (sp : Byte) : Raise := { kind := .stackUnderflow, info := zext9 sp }

/-- The address PUSH stores to: R7 after the decrement (20_memory.md R63, 41_stack.md R110). -/
def pushAddr (s : State) : Nat := (s.sp - 1).toNat

/-- PUSH's pre-decrement of R7, checked on the value before: at 0 the stack is exhausted (41_stack.md R112). -/
def predecrement (s : State) : Except Raise State :=
  if s.sp = 0 then .error (Raise.stackOverflow s.sp) else .ok (s.setSp (s.sp - 1))

/-- The address POP reads: R7 itself, checked against the top of the stack (41_stack.md R111, R112). -/
def popAddr (s : State) : Except Raise Nat :=
  if s.sp ≥ Config.stackTop then .error (Raise.stackUnderflow s.sp) else .ok s.sp.toNat

/-- POP's post-increment of R7, modulo 256 (41_stack.md R111). -/
def postincrement (s : State) : State := s.setSp (s.sp + 1)

end Sys2Proof.Machine
end

