-- ==== Sys2Proof/Machine/Alu.lean ====
section
/-! DEFINITION. The ALU: ADD, MUL and CMP (spec 43_alu.md). Unsigned byte arithmetic, computed exactly and reduced
modulo 256; overflow raises nothing and sets no flag (R130). Both sources are read before the write. -/

namespace Sys2Proof.Machine

/-- `(u + v) mod 256` (43_alu.md R131). -/
def aluAdd (u v : Byte) : Byte := BitVec.ofNat 8 ((u.toNat + v.toNat) % 256)

/-- `(u * v) mod 256` (43_alu.md R132). -/
def aluMul (u v : Byte) : Byte := BitVec.ofNat 8 ((u.toNat * v.toNat) % 256)

/-- ADD a, b (43_alu.md R131). -/
def execAdd (a b : Byte) (s : State) : Host.Outcome State Fault Refusal :=
  commit s do
    let ra ← regOperand a
    let rb ← regOperand b
    return (s.setReg ra (aluAdd (s.reg ra) (s.reg rb))).advance 2

/-- MUL a, b (43_alu.md R132). -/
def execMul (a b : Byte) (s : State) : Host.Outcome State Fault Refusal :=
  commit s do
    let ra ← regOperand a
    let rb ← regOperand b
    return (s.setReg ra (aluMul (s.reg ra) (s.reg rb))).advance 2

/-- CMP a, b (43_alu.md R133). -/
def execCmp (a b : Byte) (s : State) : Host.Outcome State Fault Refusal :=
  commit s do
    let ra ← regOperand a
    let rb ← regOperand b
    return (s.setFl (cmpFlags (s.reg ra) (s.reg rb))).advance 2

end Sys2Proof.Machine
end

