-- ==== Sys2Proof/Machine/Basic.lean ====
section
/-! DEFINITION. HLT, LDI and PRN (spec 40_basic.md). Each meaning is `Execute(op, a, b, npc)` of 30_encoding.md R89
with R92's register check before it; the state it is given is the one in which the step began. -/

namespace Sys2Proof.Machine

/-- HLT (40_basic.md R100). -/
def execHlt (s : State) : Host.Outcome State Fault Refusal :=
  commit s (.ok (s.halt.advance 0))

/-- LDI a, b (40_basic.md R101). The immediate is any byte and is not checked. -/
def execLdi (a b : Byte) (s : State) : Host.Outcome State Fault Refusal :=
  commit s do
    let ra ← regOperand a
    return (s.setReg ra b).advance 2

/-- PRN a (40_basic.md R102). -/
def execPrn (a : Byte) (s : State) : Host.Outcome State Fault Refusal :=
  commit s do
    let ra ← regOperand a
    return (s.emit (s.reg ra)).advance 1

end Sys2Proof.Machine
end

