-- ==== Sys2Proof/Machine/Branch.lean ====
section
/-! DEFINITION. JMP, JEQ and JNE (spec 42_branch.md): register-indirect, the target zero-extended to 9 bits. The
register operand is checked whether or not the branch is taken (30_encoding.md R92). -/

namespace Sys2Proof.Machine

/-- A branch of one operand byte: the value of a register if taken, `npc` if not. -/
def branch (s : State) (ra : RegIx) (taken : Bool) : State :=
  if taken then s.setPc (zext9 (s.reg ra)) else s.advance 1

/-- JMP a (42_branch.md R120). -/
def execJmp (a : Byte) (s : State) : Host.Outcome State Fault Refusal :=
  commit s do
    let ra ← regOperand a
    return branch s ra true

/-- JEQ a (42_branch.md R121). -/
def execJeq (a : Byte) (s : State) : Host.Outcome State Fault Refusal :=
  commit s do
    let ra ← regOperand a
    return branch s ra (jeqTaken s.fl)

/-- JNE a (42_branch.md R122). -/
def execJne (a : Byte) (s : State) : Host.Outcome State Fault Refusal :=
  commit s do
    let ra ← regOperand a
    return branch s ra (jneTaken s.fl)

end Sys2Proof.Machine
end

