-- ==== Sys2Proof/Machine/Stack.lean ====
section
/-! DEFINITION. PUSH and POP (spec 41_stack.md), line by line in the order of the pseudocode, which is what fixes
PUSH R7 and POP R7 (R113). -/

namespace Sys2Proof.Machine

/-- PUSH a (41_stack.md R110, R112, R113): `x[a]` is read after the decrement. -/
def execPush (a : Byte) (s : State) : Host.Outcome State Fault Refusal :=
  commit s do
    let ra ← regOperand a
    let s₁ ← predecrement s
    let s₂ ← s₁.memWrite (pushAddr s) (s₁.reg ra)
    return s₂.advance 1

/-- POP a (41_stack.md R111, R112, R113): `x[7]` is read again after the write to `x[a]`. -/
def execPop (a : Byte) (s : State) : Host.Outcome State Fault Refusal :=
  commit s do
    let ra ← regOperand a
    let addr ← popAddr s
    let v ← s.memRead addr
    return (postincrement (s.setReg ra v)).advance 1

end Sys2Proof.Machine
end

