-- ==== Sys2Proof/Machine/Fetch.lean ====
section
/-! DEFINITION. Fetch and decode of the instruction at pc, in the order of spec 30_encoding.md R89: opcode fetch,
opcode check, operand fetch. The register check is the first act of each meaning (R92). -/

namespace Sys2Proof.Machine

/-- The fatal error of a rejected decode at address p (30_encoding.md R88; 60_exceptions.md R151). A missing byte k
would lie at p + k. -/
def raiseOfDecode (p : Nat) : DecodeError → Raise
  | .invalidInstruction op => { kind := .invalidInstruction, info := zext9 op }
  | .unsupportedOperation op => { kind := .unsupportedOperation, info := zext9 op }
  | .missingByte k => Raise.outOfRange (p + k)

/-- Reads n consecutive bytes from an address up, the lower first; the first address above 255 raises OutOfRange
(30_encoding.md R91). -/
def State.readBytes (s : State) : Nat → Nat → Except Raise (List Byte)
  | _, 0 => .ok []
  | addr, n + 1 => do
    let v ← s.memRead addr
    let vs ← s.readBytes (addr + 1) n
    return v :: vs

/-- The instruction at pc, or what its fetch raises (30_encoding.md R89, R91): the opcode byte, then as many operand
bytes as a valid opcode's count calls for and none after an illegal opcode, then the decoder. -/
def fetch (s : State) : Except Raise Instr := do
  let p := s.pc.toNat
  let op ← s.memRead p
  let operands ← s.readBytes (p + 1) (operandBytes op)
  match decode (op :: operands) with
  | .ok (i, _) => return i
  | .error e => .error (raiseOfDecode p e)

/-- The memory with the bytes of an instruction, as the opcode table numbers its bits, stored where the next fetch
reads. -/
def placeTableWord (s : State) (nbits w : Nat) : State :=
  { s with mem := Memory.writeList s.mem s.pc.toNat (tableBytes nbits w) }

end Sys2Proof.Machine
end

