-- ==== Sys2Proof/Machine/Step.lean ====
section
/-! DEFINITION. One step of the machine (spec 30_encoding.md R89; 10_state.md R31). -/

namespace Sys2Proof.Machine

/-- One step: while Running, the instruction at pc is fetched, decoded and executed as a whole, or its fetch raises a
fatal error; in Halted and Faulted there is no step (R31, R89). -/
def step (s : State) : Host.Outcome State Fault Refusal :=
  match s.run with
  | .halted => .fault .noStepHalted
  | .faulted => .fault .noStepFaulted
  | .running =>
    match fetch s with
    | .ok i => exec i s
    | .error r => commit s (.error r)

/-- The state with one instruction stored at pc, so that a step of a running machine fetches and runs it. -/
def State.withFetchWord (s : State) (nbits w : Nat) : State := placeTableWord s nbits w

end Sys2Proof.Machine
end

