-- ==== Sys2Proof/Machine/Boot.lean ====
section
/-! DEFINITION. The reset and load interface (spec 10_state.md R53; 70_reset_and_hazards.md R180; 92_eei_decisions.md
D19, D23): the host's side of it, outside the step. Reset keeps nothing of the state before it, so it takes none. -/

namespace Sys2Proof.Machine

/-- The host writes the image into consecutive addresses from 0 while reset is held (R53, R180 step 4). -/
def State.loadImage (s : State) (image : List Byte) : State := { s with mem := Memory.writeList s.mem 0 image }

/-- The state when reset is released, given the OPEN parameters R5 names: the values of R0 to R6, of the flags
register, and the image. An image of more than 256 bytes is a loader error and no run starts (D23). -/
def State.boot (gpr : Vector Byte 7) (fl : FlagBits) (image : List Byte) : Option State :=
  if image.length ≤ Config.memSize then some ((State.resetWith gpr fl).loadImage image) else none

end Sys2Proof.Machine
end

