-- ==== Sys2Proof/Machine/Port.lean ====
section
/-! DEFINITION. What crosses the memory port and the output port during a step, in order (spec 10_state.md R50 to R52;
20_memory.md R63, R64, R70). Listings of what `step` does, not state: an address above 255 is caught in the core and
never reaches the port (R62). -/

namespace Sys2Proof.Machine

/-- One transaction of the memory port (10_state.md R51). -/
inductive Access where
  /-- A byte was read. -/
  | read (addr : Nat) (v : Byte)
  /-- A byte was written. -/
  | write (addr : Nat) (v : Byte)
  deriving DecidableEq, Repr

/-- The address of a transaction. -/
def Access.addr : Access → Nat
  | .read addr _ => addr
  | .write addr _ => addr

/-- Reads of n consecutive bytes, up to the top of memory. -/
def readAccesses (s : State) : Nat → Nat → List Access
  | _, 0 => []
  | addr, n + 1 =>
    if addr < Config.memSize then .read addr (Memory.read s.mem addr) :: readAccesses s (addr + 1) n else []

/-- The fetch of the opcode byte and of the operand bytes its count calls for (20_memory.md R64). -/
def fetchAccesses (s : State) : List Access :=
  let op := Memory.read s.mem s.pc.toNat
  if s.pc.toNat < Config.memSize then .read s.pc.toNat op :: readAccesses s (s.pc.toNat + 1) (operandBytes op) else []

/-- PUSH's write: one byte at the new R7, none if it raises (20_memory.md R64). -/
def pushAccesses (a : Byte) (s : State) : List Access :=
  match regOperand a, predecrement s with
  | .ok ra, .ok s₁ => [.write (pushAddr s) (s₁.reg ra)]
  | _, _ => []

/-- POP's read: one byte at R7, none if it raises (20_memory.md R64). -/
def popAccesses (a : Byte) (s : State) : List Access :=
  match regOperand a, popAddr s with
  | .ok _, .ok addr => [.read addr (Memory.read s.mem addr)]
  | _, _ => []

/-- The accesses of an instruction beyond its fetch (20_memory.md R64). -/
def execAccesses (i : Instr) (s : State) : List Access :=
  match i with
  | .hlt => []
  | .ldi _ _ => []
  | .prn _ => []
  | .push a => pushAccesses a s
  | .pop a => popAccesses a s
  | .jmp _ => []
  | .jeq _ => []
  | .jne _ => []
  | .add _ _ => []
  | .mul _ _ => []
  | .cmp _ _ => []

/-- The memory port's transactions of one step (20_memory.md R64); none in Halted and Faulted (10_state.md R31). -/
def stepAccesses (s : State) : List Access :=
  match s.run with
  | .halted => []
  | .faulted => []
  | .running => fetchAccesses s ++ (match fetch s with | .ok i => execAccesses i s | .error _ => [])

/-- The output port's events of an instruction: PRN's byte, none if it raises (10_state.md R52). -/
def execEmits (i : Instr) (s : State) : List Byte :=
  match i with
  | .hlt => []
  | .ldi _ _ => []
  | .prn a => match regOperand a with | .ok ra => [s.reg ra] | .error _ => []
  | .push _ => []
  | .pop _ => []
  | .jmp _ => []
  | .jeq _ => []
  | .jne _ => []
  | .add _ _ => []
  | .mul _ _ => []
  | .cmp _ _ => []

/-- The output port's events of one step (10_state.md R52). -/
def stepEmits (s : State) : List Byte :=
  match s.run with
  | .halted => []
  | .faulted => []
  | .running => match fetch s with | .ok i => execEmits i s | .error _ => []

/-- The memory after a list of transactions: reads change nothing, writes store their byte. -/
def replay : List Access → List Host.Cell → List Host.Cell
  | [], m => m
  | .read _ _ :: l, m => replay l m
  | .write addr v :: l, m => replay l (Memory.write m addr v)

end Sys2Proof.Machine
end

