-- ==== Sys2Proof/Machine/Status.lean ====
section
/-! DEFINITION. What the host sees of a state: the status outputs (spec 10_state.md R35, R54), the debug snapshot
(R55, R37) and the observation of a finished run (70_reset_and_hazards.md R185). All are functions of the state; none
is state, and no program can read them. -/

namespace Sys2Proof.Machine

/-- The numeric code of a fault kind (60_exceptions.md R151). -/
def faultCode : FaultKind → BitVec 3
  | .invalidInstruction => 1
  | .unsupportedOperation => 2
  | .outOfRange => 3
  | .invalidRegister => 4
  | .stackOverflow => 5
  | .stackUnderflow => 6

/-- The status outputs (R35). -/
structure StatusOutputs where
  /-- `st_state`. -/
  stState : BitVec 2
  /-- `st_fault_code`. -/
  stFaultCode : BitVec 3
  /-- `st_fault_pc`. -/
  stFaultPc : Word9
  /-- `st_fault_info`. -/
  stFaultInfo : Word9
  deriving DecidableEq, Repr

/-- `st_state`: 00 Running, 01 Halted, 10 Faulted (R35). -/
def runCode : RunState → BitVec 2
  | .running => 0b00
  | .halted => 0b01
  | .faulted => 0b10

/-- The record that the status outputs show: the fault record in Faulted, none otherwise (R35). -/
def shownFault (s : State) : Option FaultRecord :=
  match s.run with
  | .faulted => s.fault
  | .running => none
  | .halted => none

/-- The status outputs follow the run state and the fault record (R35). -/
def statusOutputs (s : State) : StatusOutputs where
  stState := runCode s.run
  stFaultCode := match shownFault s with | some r => faultCode r.kind | none => 0
  stFaultPc := match shownFault s with | some r => r.fpc | none => 0
  stFaultInfo := match shownFault s with | some r => r.info | none => 0

/-- The flags register as a byte: bits 2 to 0 are `fl`, bits 7 to 3 are 0 (R37). -/
def flByte (fl : FlagBits) : Byte := fl.setWidth 8

/-- What the debug snapshot port shows (R55). -/
structure Snapshot where
  /-- The program counter. -/
  pc : Word9
  /-- The general registers. -/
  x : Vector Byte 8
  /-- The flags register as a byte. -/
  fl : Byte
  /-- The run state. -/
  run : RunState
  deriving DecidableEq, Repr

/-- The debug snapshot of a state (R55). -/
def snapshot (s : State) : Snapshot where
  pc := s.pc
  x := s.x
  fl := flByte s.fl
  run := s.run

/-- How a run ended (R185). -/
inductive RunEnd where
  /-- An HLT executed: success. -/
  | halted
  /-- A fatal error, with its kind. -/
  | faulted (kind : FaultKind)
  deriving DecidableEq, Repr

/-- The outcome of a state; none while the run has not ended (R185). -/
def State.outcome (s : State) : Option RunEnd :=
  match s.run with
  | .running => none
  | .halted => some .halted
  | .faulted => s.fault.map (fun r => .faulted r.kind)

/-- What a finished run shows the host: the output and the outcome (R185). -/
def State.observation (s : State) : Option (List Byte × RunEnd) := s.outcome.map (fun e => (s.out, e))

end Sys2Proof.Machine
end

