-- ==== Sys2Proof/Safety.lean ====
section
/-! DEFINITION. What claims call a good state and a safe step: the invariant that reset meets and every step keeps. -/

namespace Sys2Proof.Machine

/-- The values the fault record's `info` may hold for each kind (spec 60_exceptions.md R151, 10_state.md R32). -/
def faultInfoLegal : FaultKind → Word9 → Bool
  | .invalidInstruction, v => v.toNat < 256 && !isOpcode (v.setWidth 8) && !opcodeAlu (v.setWidth 8)
  | .unsupportedOperation, v => v.toNat < 256 && !isOpcode (v.setWidth 8) && opcodeAlu (v.setWidth 8)
  | .outOfRange, v => v.toNat == 256
  | .invalidRegister, v => 8 ≤ v.toNat && v.toNat < 256
  | .stackOverflow, v => v.toNat == 0
  | .stackUnderflow, v => 0xF4 ≤ v.toNat && v.toNat < 256

/-- The fault record is empty unless the run state is Faulted; there it holds the pc, which stays at the faulting
opcode, and a value its kind may record (10_state.md R20, R28, R32). -/
def faultRecordAgrees (s : State) : Bool :=
  match s.run, s.fault with
  | .running, none => true
  | .halted, none => true
  | .faulted, some r => r.fpc == s.pc && faultInfoLegal r.kind r.info
  | _, _ => false

/-- The program counter is 0 to 256 (10_state.md R26). -/
abbrev pcInRange (s : State) : Prop := s.pc.toNat ≤ 256

/-- The invariant of the machine: pc in range (R26), memory in its canonical form with no address above 255 (R60), the
fault record in agreement with the run state (R20, R32). -/
abbrev State.Inv (s : State) : Prop :=
  pcInRange s ∧ Memory.wf s.mem ∧ faultRecordAgrees s = true

/-- A terminal run state: Halted or Faulted (10_state.md R31). -/
abbrev State.terminal (s : State) : Prop := s.run ≠ .running

end Sys2Proof.Machine
end

