-- ==== Sys2Proof/Certificates/Slice0/Obligations.lean ====
section
/-! DEFINITION. The statements for the provers. Each docstring names the rule of the spec it states; where a rule is
tagged a decision of the spec's own (D<n>) or derived, the docstring says so, and where the model fixes or infers
something it names the log entry (notes/assumptions). -/

open Sys2Proof Sys2Proof.Machine

namespace Sys2Proof.Claims

/-- The byte of memory at an address. -/
abbrev byteAt (s : State) (addr : Nat) : Byte := Memory.read s.mem addr

/-- The address of the opcode of the instruction that a step runs, the spec's `p`. -/
abbrev opAddr (s : State) : Nat := s.pc.toNat

/-- The bytes of memory from p up, at most three, no further than address 255. -/
def window (s : State) : List Byte := (List.range (min 3 (256 - opAddr s))).map (fun k => byteAt s (opAddr s + k))

/-- The running state `s` whose opcode byte is `op`, at an address inside the memory. -/
abbrev runsOpcode (s : State) (op : Byte) : Prop := s.run = .running ∧ opAddr s ≤ 255 ∧ byteAt s (opAddr s) = op

/-- A step that takes a fatal error: a next state (log entry 7) that is as before but for the run state and the fault
record (60_exceptions.md R152, the spec's decision D6, log entry 12). -/
abbrev stepRaises (s : State) (k : FaultKind) (info : Word9) : Prop :=
  step s = .next { s with run := .faulted, fault := some { kind := k, fpc := s.pc, info := info } }

/-- Every byte of memory reads the same. -/
abbrev sameMemory (s t : State) : Prop := ∀ addr, byteAt t addr = byteAt s addr

/-- The run state and the fault record are as before, or the instruction only took a fatal error. -/
abbrev completesOrRaises (s t : State) : Prop :=
  (t.run = s.run ∧ t.fault = s.fault) ∨ ∃ r, t = s.raise r

/-- The first cause of a fatal error of the instruction at pc, in the order of 60_exceptions.md R153, from the bytes in
memory and R7 alone; none if there is no cause. -/
def firstCause (s : State) : Option Raise :=
  let p := opAddr s
  let op := byteAt s p
  let a := byteAt s (p + 1)
  let b := byteAt s (p + 2)
  if p > 255 then some { kind := .outOfRange, info := s.pc }
  else if op ∉ validOpcodes ∧ op.getLsbD 5 = false then some { kind := .invalidInstruction, info := zext9 op }
  else if op ∉ validOpcodes then some { kind := .unsupportedOperation, info := zext9 op }
  else if opcodeCount op ≥ 1 ∧ p + 1 > 255 then some { kind := .outOfRange, info := 256 }
  else if opcodeCount op = 2 ∧ p + 2 > 255 then some { kind := .outOfRange, info := 256 }
  else if opcodeCount op ≥ 1 ∧ 8 ≤ a.toNat then some { kind := .invalidRegister, info := zext9 a }
  else if op.getLsbD 5 = true ∧ 8 ≤ b.toNat then some { kind := .invalidRegister, info := zext9 b }
  else if op = 0x45 ∧ s.sp = 0 then some { kind := .stackOverflow, info := 0 }
  else if op = 0x46 ∧ 0xF4 ≤ s.sp.toNat then some { kind := .stackUnderflow, info := zext9 s.sp }
  else none

/-- A write of the memory port. -/
def isWrite : Access → Bool
  | .write _ _ => true
  | .read _ _ => false

end Sys2Proof.Claims

open Sys2Proof.Claims

/-! ## Encoding -/

/-- Decoding the bytes of an instruction gives it back, every operand at every byte value, whatever follows
(30_encoding.md R80, R85 to R87). -/
def Obligations.DecodeOfEncode : Prop :=
  ∀ (i : Instr) (rest : List Byte), decode (encode i ++ rest) = .ok (i, rest)

/-- Whatever decodes is an instruction's own bytes: no two byte strings give one instruction (30_encoding.md R84, R86,
R87). -/
def Obligations.EncodeOfDecode : Prop :=
  ∀ (bytes : List Byte) (i : Instr) (rest : List Byte), decode bytes = .ok (i, rest) → bytes = encode i ++ rest

/-- Words written out from the opcode map decode to the instructions they stand for (30_encoding.md R87). -/
def Obligations.OpcodeWordsDecode : Prop :=
  decode [0b00000001] = .ok (.hlt, []) ∧
  decode [0b10000010, 0b00000011, 0b11111111] = .ok (.ldi 3 255, []) ∧
  decode [0b01000111, 0b00000111] = .ok (.prn 7, []) ∧
  decode [0b01000101, 0b00000001] = .ok (.push 1, []) ∧
  decode [0b01000110, 0b00000010] = .ok (.pop 2, []) ∧
  decode [0b01010100, 0b00000011] = .ok (.jmp 3, []) ∧
  decode [0b01010101, 0b00000100] = .ok (.jeq 4, []) ∧
  decode [0b01010110, 0b00000101] = .ok (.jne 5, []) ∧
  decode [0b10100000, 0b00000001, 0b00000110] = .ok (.add 1 6, []) ∧
  decode [0b10100010, 0b00000010, 0b00000101] = .ok (.mul 2 5, []) ∧
  decode [0b10100111, 0b00000110, 0b00000000] = .ok (.cmp 6 0, [])

/-- Every byte that is none of the eleven opcodes is rejected whatever follows it, by its bit 5, and of the 256 bytes 11
are opcodes, 120 are rejected as invalid instructions and 125 as unsupported operations (30_encoding.md R88; the split
by bit 5 is the spec's decision D5, log entry 11). -/
def Obligations.IllegalOpcodesRejected : Prop :=
  (∀ (op : Byte) (rest : List Byte), op ∉ validOpcodes →
    decode (op :: rest) = .error (if op.getLsbD 5 then .unsupportedOperation op else .invalidInstruction op)) ∧
  ((List.range 256).filter (fun k => isOpcode (BitVec.ofNat 8 k))).length = 11 ∧
  ((List.range 256).filter
    (fun k => decode [BitVec.ofNat 8 k, 0, 0] = .error (.invalidInstruction (BitVec.ofNat 8 k)))).length = 120 ∧
  ((List.range 256).filter
    (fun k => decode [BitVec.ofNat 8 k, 0, 0] = .error (.unsupportedOperation (BitVec.ofNat 8 k)))).length = 125

/-! ## The step -/

/-- When the bytes at pc decode to an instruction, a step of the running machine is `exec` of it, with nothing around
it (30_encoding.md R89): `exec` itself moves the pc past the instruction. -/
def Obligations.StepRunsDecodedInstruction : Prop :=
  ∀ (s : State) (i : Instr) (rest : List Byte), s.run = .running → decode (window s) = .ok (i, rest) →
    step s = exec i s

/-- In Halted and Faulted there is no step: nothing crosses the memory port and nothing is emitted (10_state.md R31,
decision D6; that `step` answers a named fault is the model's, log entry 3, and so is the listing of what crosses the
ports, log entry 16). -/
def Obligations.NoStepWhenTerminal : Prop :=
  (∀ s : State, s.run = .halted → step s = .fault .noStepHalted) ∧
  (∀ s : State, s.run = .faulted → step s = .fault .noStepFaulted) ∧
  (∀ s : State, s.terminal → stepAccesses s = [] ∧ stepEmits s = [])

/-- Every instruction answers a next state from every state, and so does every step of a running machine: nothing is
refused, and a fatal error is a next state (30_encoding.md R89, 60_exceptions.md R152, decision D6, log entry 7). -/
def Obligations.RunningAlwaysSteps : Prop :=
  (∀ (i : Instr) (s : State), ∃ t, exec i s = .next t) ∧ (∀ s : State, s.run = .running → ∃ t, step s = .next t)

/-- At most one fatal error per instruction, the first cause in the listed order, taken precisely; without a cause the
instruction completes (60_exceptions.md R151 to R153; the spec's decisions D3 to D6, D8, D12, log entries 8, 10, 11,
12). -/
def Obligations.FirstCauseIsRaised : Prop :=
  ∀ s : State, s.run = .running →
    (∀ r, firstCause s = some r → stepRaises s r.kind r.info) ∧
    (firstCause s = none → ∃ t, step s = .next t ∧ t.run ≠ .faulted ∧ t.fault = s.fault)

/-- Faults are precise: a step that ends in Faulted changes nothing but the run state and the fault record, which holds
the address of the faulting opcode (60_exceptions.md R152, 10_state.md R28, the spec's decision D6, log entry 12). -/
def Obligations.FaultsArePrecise : Prop :=
  ∀ s t : State, s.run = .running → step s = .next t → t.run = .faulted →
    t.x = s.x ∧ t.fl = s.fl ∧ t.mem = s.mem ∧ t.pc = s.pc ∧ t.out = s.out ∧
      ∃ r, t.fault = some r ∧ r.fpc = s.pc

/-! ## Each instruction's rule, at the step -/

/-- HLT at p: it halts with pc = p + 1, at 255 too; nothing else changes; nothing executes and no memory is accessed
after it; a fetch at 256 raises OutOfRange(256) (40_basic.md R100). That pc reaches 256 and that HLT at 255 reads one
byte are the spec's decisions D3 and D4 (log entry 10), the state after the raise is its decision D6 (R152, log entry
12), that no next state follows Halted is R31 as the model reads it (log entry 3), and the listing of the accesses is
the model's (20_memory.md R64, log entry 16). -/
def Obligations.HltStep : Prop :=
  (∀ s : State, runsOpcode s 0b00000001 →
    ∃ t, t = { s with run := .halted, pc := BitVec.ofNat 9 (opAddr s + 1) } ∧ step s = .next t ∧
      (∀ u, step t ≠ .next u) ∧ stepAccesses t = [] ∧
      stepAccesses s = [.read (opAddr s) 0b00000001]) ∧
  (∀ s : State, s.run = .running → opAddr s = 256 → stepRaises s .outOfRange 256)

/-- LDI at p: OutOfRange(256) from p = 254 up, whatever a is; InvalidRegister(a) for a of 8 or more; otherwise x[a]
becomes b and pc p + 3, and nothing else changes (40_basic.md R101). Not R101's own: the state after a raise is R152,
the spec's decision D6 (log entry 12); that the fetch comes before the register check, and the check before the effect,
is R153's order, its decisions D5 and D12 (log entry 11). -/
def Obligations.LdiStep : Prop :=
  ∀ s : State, runsOpcode s 0b10000010 →
    (opAddr s ≥ 254 → stepRaises s .outOfRange 256) ∧
    (opAddr s < 254 → ∀ a b : Byte, byteAt s (opAddr s + 1) = a → byteAt s (opAddr s + 2) = b →
      (a.toNat ≥ 8 → stepRaises s .invalidRegister (zext9 a)) ∧
      (∀ h : a.toNat < 8,
        step s = .next { s with x := s.x.set a.toNat b h, pc := BitVec.ofNat 9 (opAddr s + 3) }))

/-- PRN at p: OutOfRange(256) at p = 255; InvalidRegister(a) for a of 8 or more; otherwise x[a] is appended to the
output and pc becomes p + 2, and nothing else changes (40_basic.md R102). The state after a raise is R152, the spec's
decision D6 (log entry 12); only the operand byte that is counted is read, its decision D4 (log entry 10); the register
check on every execution is R92, its decision D12 (log entry 11). -/
def Obligations.PrnStep : Prop :=
  ∀ s : State, runsOpcode s 0b01000111 →
    (opAddr s = 255 → stepRaises s .outOfRange 256) ∧
    (opAddr s < 255 → ∀ a : Byte, byteAt s (opAddr s + 1) = a →
      (a.toNat ≥ 8 → stepRaises s .invalidRegister (zext9 a)) ∧
      (∀ h : a.toNat < 8,
        step s = .next { s with out := s.out ++ [s.x[a.toNat]], pc := BitVec.ofNat 9 (opAddr s + 2) }))

/-- PUSH at p (41_stack.md R110, R112, R113): OutOfRange(256) at p = 255; InvalidRegister(a); StackOverflow(0) with R7 =
0 (decision D8, log entry 8); otherwise R7 falls by one and the byte stored at the new R7 is x[a], read after the
decrement, so that PUSH R7 stores the new R7 (decision D9, log entry 9). The state after a raise is R152, the spec's
decision D6 (log entry 12); only the operand byte that is counted is read, its decision D4 (log entry 10); the register
check on every execution is R92, its decision D12 (log entry 11); the order of the causes is R153's, its decision D5
(log entry 11). -/
def Obligations.PushStep : Prop :=
  ∀ s : State, runsOpcode s 0b01000101 →
    (opAddr s = 255 → stepRaises s .outOfRange 256) ∧
    (opAddr s < 255 → ∀ a : Byte, byteAt s (opAddr s + 1) = a →
      (a.toNat ≥ 8 → stepRaises s .invalidRegister (zext9 a)) ∧
      (a.toNat < 8 → s.x[7] = 0 → stepRaises s .stackOverflow 0) ∧
      (∀ h : a.toNat < 8, s.x[7] ≠ 0 →
        step s = .next { s with
          x := s.x.set 7 (s.x[7] - 1)
          mem := Memory.write s.mem (s.x[7].toNat - 1) (if a = 7 then s.x[7] - 1 else s.x[a.toNat])
          pc := BitVec.ofNat 9 (opAddr s + 2) }))

/-- POP at p (41_stack.md R111, R112, R113): OutOfRange(256) at p = 255; InvalidRegister(a); StackUnderflow(R7) with R7
at 0xF4 or above (decision D8, log entry 8); otherwise x[a] becomes the byte at R7 and R7 rises by one; POP R7 leaves
the popped byte plus one modulo 256 (decision D9, log entry 9). Memory is not written. The state after a raise is R152,
the spec's decision D6 (log entry 12); only the operand byte that is counted is read, its decision D4 (log entry 10);
the register check on every execution is R92, its decision D12 (log entry 11); the order of the causes is R153's, its
decision D5 (log entry 11). -/
def Obligations.PopStep : Prop :=
  ∀ s : State, runsOpcode s 0b01000110 →
    (opAddr s = 255 → stepRaises s .outOfRange 256) ∧
    (opAddr s < 255 → ∀ a : Byte, byteAt s (opAddr s + 1) = a →
      (a.toNat ≥ 8 → stepRaises s .invalidRegister (zext9 a)) ∧
      (a.toNat < 8 → s.x[7].toNat ≥ 0xF4 → stepRaises s .stackUnderflow (zext9 s.x[7])) ∧
      (∀ h : a.toNat < 8, s.x[7].toNat < 0xF4 → a ≠ 7 →
        step s = .next { s with
          x := (s.x.set a.toNat (byteAt s s.x[7].toNat) h).set 7 (BitVec.ofNat 8 (s.x[7].toNat + 1))
          pc := BitVec.ofNat 9 (opAddr s + 2) }) ∧
      (s.x[7].toNat < 0xF4 → a = 7 →
        step s = .next { s with
          x := s.x.set 7 (BitVec.ofNat 8 (((byteAt s s.x[7].toNat).toNat + 1) % 256))
          pc := BitVec.ofNat 9 (opAddr s + 2) }))

/-- JMP at p: OutOfRange(256) at p = 255; InvalidRegister(a) for a of 8 or more; otherwise pc becomes x[a],
zero-extended, and nothing else changes (42_branch.md R120). The state after a raise is R152, the spec's decision D6
(log entry 12); only the operand byte that is counted is read, its decision D4 (log entry 10); the register check on
every execution is R92, its decision D12 (log entry 11). -/
def Obligations.JmpStep : Prop :=
  ∀ s : State, runsOpcode s 0b01010100 →
    (opAddr s = 255 → stepRaises s .outOfRange 256) ∧
    (opAddr s < 255 → ∀ a : Byte, byteAt s (opAddr s + 1) = a →
      (a.toNat ≥ 8 → stepRaises s .invalidRegister (zext9 a)) ∧
      (∀ h : a.toNat < 8, step s = .next { s with pc := BitVec.ofNat 9 s.x[a.toNat].toNat }))

/-- JEQ at p: OutOfRange(256) at p = 255; InvalidRegister(a), taken or not; otherwise pc becomes x[a] if bit 0 of the
flags is 1 and p + 2 if it is 0, and nothing else changes (42_branch.md R121). The check of a branch that is not taken
is the spec's decision D12 (R92, log entry 11); the state after a raise is R152, its decision D6 (log entry 12); only
the operand byte that is counted is read, its decision D4 (log entry 10). -/
def Obligations.JeqStep : Prop :=
  ∀ s : State, runsOpcode s 0b01010101 →
    (opAddr s = 255 → stepRaises s .outOfRange 256) ∧
    (opAddr s < 255 → ∀ a : Byte, byteAt s (opAddr s + 1) = a →
      (a.toNat ≥ 8 → stepRaises s .invalidRegister (zext9 a)) ∧
      (∀ h : a.toNat < 8,
        (s.fl[0] = true → step s = .next { s with pc := BitVec.ofNat 9 s.x[a.toNat].toNat }) ∧
        (s.fl[0] = false → step s = .next { s with pc := BitVec.ofNat 9 (opAddr s + 2) })))

/-- JNE at p: OutOfRange(256) at p = 255; InvalidRegister(a), taken or not; otherwise pc becomes x[a] if bit 0 of the
flags is 0 and p + 2 if it is 1, and nothing else changes (42_branch.md R122). The check of a branch that is not taken
is the spec's decision D12 (R92, log entry 11); the state after a raise is R152, its decision D6 (log entry 12); only
the operand byte that is counted is read, its decision D4 (log entry 10). -/
def Obligations.JneStep : Prop :=
  ∀ s : State, runsOpcode s 0b01010110 →
    (opAddr s = 255 → stepRaises s .outOfRange 256) ∧
    (opAddr s < 255 → ∀ a : Byte, byteAt s (opAddr s + 1) = a →
      (a.toNat ≥ 8 → stepRaises s .invalidRegister (zext9 a)) ∧
      (∀ h : a.toNat < 8,
        (s.fl[0] = false → step s = .next { s with pc := BitVec.ofNat 9 s.x[a.toNat].toNat }) ∧
        (s.fl[0] = true → step s = .next { s with pc := BitVec.ofNat 9 (opAddr s + 2) })))

/-- ADD at p: OutOfRange(256) from p = 254 up, whatever a and b are; InvalidRegister(a), otherwise InvalidRegister(b);
otherwise x[a] becomes (x[a] + x[b]) mod 256 and pc p + 3, and nothing else changes (43_alu.md R131). Not R131's own:
the state after a raise is R152, the spec's decision D6 (log entry 12); that the fetch comes before the register check,
and the check before the effect, is R153's order, its decisions D5 and D12 (log entry 11). -/
def Obligations.AddStep : Prop :=
  ∀ s : State, runsOpcode s 0b10100000 →
    (opAddr s ≥ 254 → stepRaises s .outOfRange 256) ∧
    (opAddr s < 254 → ∀ a b : Byte, byteAt s (opAddr s + 1) = a → byteAt s (opAddr s + 2) = b →
      (a.toNat ≥ 8 → stepRaises s .invalidRegister (zext9 a)) ∧
      (a.toNat < 8 → b.toNat ≥ 8 → stepRaises s .invalidRegister (zext9 b)) ∧
      (∀ (ha : a.toNat < 8) (hb : b.toNat < 8),
        step s = .next { s with
          x := s.x.set a.toNat (BitVec.ofNat 8 ((s.x[a.toNat].toNat + s.x[b.toNat].toNat) % 256)) ha
          pc := BitVec.ofNat 9 (opAddr s + 3) }))

/-- MUL at p: OutOfRange(256) from p = 254 up, whatever a and b are; InvalidRegister(a), otherwise InvalidRegister(b);
otherwise x[a] becomes (x[a] * x[b]) mod 256 and pc p + 3, and nothing else changes (43_alu.md R132). Not R132's own:
the state after a raise is R152, the spec's decision D6 (log entry 12); that the fetch comes before the register check,
and the check before the effect, is R153's order, its decisions D5 and D12 (log entry 11). -/
def Obligations.MulStep : Prop :=
  ∀ s : State, runsOpcode s 0b10100010 →
    (opAddr s ≥ 254 → stepRaises s .outOfRange 256) ∧
    (opAddr s < 254 → ∀ a b : Byte, byteAt s (opAddr s + 1) = a → byteAt s (opAddr s + 2) = b →
      (a.toNat ≥ 8 → stepRaises s .invalidRegister (zext9 a)) ∧
      (a.toNat < 8 → b.toNat ≥ 8 → stepRaises s .invalidRegister (zext9 b)) ∧
      (∀ (ha : a.toNat < 8) (hb : b.toNat < 8),
        step s = .next { s with
          x := s.x.set a.toNat (BitVec.ofNat 8 ((s.x[a.toNat].toNat * s.x[b.toNat].toNat) % 256)) ha
          pc := BitVec.ofNat 9 (opAddr s + 3) }))

/-- CMP at p: OutOfRange(256) from p = 254 up, whatever a and b are; InvalidRegister(a), otherwise InvalidRegister(b);
otherwise the flags become 001, 010 or 100 by the unsigned comparison and pc p + 3, and nothing else changes (43_alu.md
R133). Not R133's own: the state after a raise is R152, the spec's decision D6 (log entry 12); that the fetch comes
before the register check, and the check before the effect, is R153's order, its decisions D5 and D12 (log entry 11). -/
def Obligations.CmpStep : Prop :=
  ∀ s : State, runsOpcode s 0b10100111 →
    (opAddr s ≥ 254 → stepRaises s .outOfRange 256) ∧
    (opAddr s < 254 → ∀ a b : Byte, byteAt s (opAddr s + 1) = a → byteAt s (opAddr s + 2) = b →
      (a.toNat ≥ 8 → stepRaises s .invalidRegister (zext9 a)) ∧
      (a.toNat < 8 → b.toNat ≥ 8 → stepRaises s .invalidRegister (zext9 b)) ∧
      (∀ (_ : a.toNat < 8) (_ : b.toNat < 8),
        step s = .next { s with
          fl := if s.x[a.toNat].toNat = s.x[b.toNat].toNat then 0b001
                else if s.x[a.toNat].toNat > s.x[b.toNat].toNat then 0b010 else 0b100
          pc := BitVec.ofNat 9 (opAddr s + 3) }))

/-! ## Completion and traps of each instruction, at exec -/

/-- HLT completes from every state; LDI and PRN complete for every register operand below 8: the next state
(40_basic.md, the pseudocode of HLT, LDI and PRN; a pc that no run reaches advances modulo 512, log entry 5). -/
def Obligations.BasicInstructionsComplete : Prop :=
  (∀ s : State, exec .hlt s = .next { s with run := .halted, pc := s.pc + 1 }) ∧
  (∀ (s : State) (a b : Byte) (h : a.toNat < 8),
    exec (.ldi a b) s = .next { s with x := s.x.set a.toNat b h, pc := s.pc + 3 }) ∧
  (∀ (s : State) (a : Byte) (_ : a.toNat < 8),
    exec (.prn a) s = .next { s with out := s.out ++ [s.x[a.toNat]], pc := s.pc + 2 })

/-- PUSH completes for every register operand below 8 with R7 not 0, POP with R7 below 0xF4: the next state
(41_stack.md, the pseudocode of PUSH and POP; the bounds and the order for R7 are decisions D8, D9, log entries 8, 9; a
pc that no run reaches advances modulo 512, log entry 5). -/
def Obligations.StackInstructionsComplete : Prop :=
  (∀ (s : State) (a : Byte) (_ : a.toNat < 8), s.x[7] ≠ 0 →
    exec (.push a) s = .next { s with
      x := s.x.set 7 (s.x[7] - 1)
      mem := Memory.write s.mem (pushAddr s) (if a = 7 then s.x[7] - 1 else s.x[a.toNat])
      pc := s.pc + 2 }) ∧
  (∀ (s : State) (a : Byte) (h : a.toNat < 8), s.x[7].toNat < 0xF4 →
    exec (.pop a) s = .next { s with
      x := (s.x.set a.toNat (byteAt s s.x[7].toNat) h).set 7
        (if a = 7 then byteAt s s.x[7].toNat + 1 else s.x[7] + 1)
      pc := s.pc + 2 })

/-- JMP, JEQ and JNE complete for every register operand below 8, taken or not: the next state (42_branch.md, the
pseudocode of JMP, JEQ and JNE; a pc that no run reaches advances modulo 512, log entry 5). -/
def Obligations.BranchesComplete : Prop :=
  ∀ (s : State) (a : Byte) (_ : a.toNat < 8),
    exec (.jmp a) s = .next { s with pc := zext9 s.x[a.toNat] } ∧
    exec (.jeq a) s = .next { s with pc := if s.fl[0] then zext9 s.x[a.toNat] else s.pc + 2 } ∧
    exec (.jne a) s = .next { s with pc := if s.fl[0] then s.pc + 2 else zext9 s.x[a.toNat] }

/-- ADD, MUL and CMP complete for every pair of register operands below 8: the next state, with the result as the byte
that is congruent modulo 256 (43_alu.md R130 and the pseudocode of ADD, MUL and CMP; a pc that no run reaches advances
modulo 512, log entry 5). -/
def Obligations.AluInstructionsComplete : Prop :=
  ∀ (s : State) (a b : Byte) (ha : a.toNat < 8) (_ : b.toNat < 8),
    (exec (.add a b) s = .next { s with x := s.x.set a.toNat (s.x[a.toNat] + s.x[b.toNat]) ha, pc := s.pc + 3 }) ∧
    (exec (.mul a b) s = .next { s with x := s.x.set a.toNat (s.x[a.toNat] * s.x[b.toNat]) ha, pc := s.pc + 3 }) ∧
    (∃ f : FlagBits, exec (.cmp a b) s = .next { s with fl := f, pc := s.pc + 3 } ∧
      (f[0] = true ↔ s.x[a.toNat] = s.x[b.toNat]) ∧ (f[1] = true ↔ s.x[a.toNat].toNat > s.x[b.toNat].toNat) ∧
      (f[2] = true ↔ s.x[a.toNat].toNat < s.x[b.toNat].toNat))

/-- An instruction with a register operand of 8 or more raises InvalidRegister of the first such operand, a before b, on
every execution (30_encoding.md R92, the spec's decision D12, log entry 11); the raise is precise (60_exceptions.md
R152, its decision D6, log entry 12). -/
def Obligations.BadRegisterRaises : Prop :=
  ∀ (i : Instr) (s : State) (a : Byte), i.regOperands.find? (fun a => 8 ≤ a.toNat) = some a →
    exec i s = .next (s.raise { kind := .invalidRegister, info := zext9 a })

/-- The stack bounds are checked on R7 before the instruction: PUSH with R7 = 0 raises StackOverflow, POP with R7 at or
above 0xF4 raises StackUnderflow (41_stack.md R112, the spec's decision D8, log entry 8); the raise is precise
(60_exceptions.md R152, its decision D6, log entry 12). -/
def Obligations.StackExhaustionRaises : Prop :=
  ∀ (s : State) (a : Byte), a.toNat < 8 →
    (s.x[7] = 0 → exec (.push a) s = .next (s.raise { kind := .stackOverflow, info := 0 })) ∧
    (s.x[7].toNat ≥ 0xF4 → exec (.pop a) s = .next (s.raise { kind := .stackUnderflow, info := zext9 s.x[7] }))

/-! ## Frames -/

/-- LDI, ADD and MUL change no register but a, no flag, no byte of memory, no output (10_state.md R25, R30; 20_memory.md
R64). -/
def Obligations.RegisterResultFrame : Prop :=
  ∀ (s t : State) (a b : Byte),
    exec (.ldi a b) s = .next t ∨ exec (.add a b) s = .next t ∨ exec (.mul a b) s = .next t →
    (∀ j : RegIx, j.val ≠ a.toNat → t.reg j = s.reg j) ∧ t.fl = s.fl ∧ sameMemory s t ∧ t.out = s.out ∧
      completesOrRaises s t

/-- HLT changes no register, flag, byte of memory, output or fault record; the run state becomes Halted (40_basic.md,
HLT's corner cases). -/
def Obligations.HltFrame : Prop :=
  ∀ s t : State, exec .hlt s = .next t →
    (∀ j : RegIx, t.reg j = s.reg j) ∧ t.fl = s.fl ∧ sameMemory s t ∧ t.out = s.out ∧ t.fault = s.fault ∧
      t.run = .halted

/-- PRN changes no register, flag or byte of memory, and the output it already had stays at the front (40_basic.md,
PRN's corner cases; 10_state.md R33). -/
def Obligations.PrnFrame : Prop :=
  ∀ (s t : State) (a : Byte), exec (.prn a) s = .next t →
    (∀ j : RegIx, t.reg j = s.reg j) ∧ t.fl = s.fl ∧ sameMemory s t ∧ s.out <+: t.out ∧ completesOrRaises s t

/-- JMP, JEQ and JNE change no register, flag, byte of memory or output (10_state.md R25, R30; 20_memory.md R64). -/
def Obligations.BranchFrame : Prop :=
  ∀ (s t : State) (a : Byte),
    exec (.jmp a) s = .next t ∨ exec (.jeq a) s = .next t ∨ exec (.jne a) s = .next t →
    (∀ j : RegIx, t.reg j = s.reg j) ∧ t.fl = s.fl ∧ sameMemory s t ∧ t.out = s.out ∧ completesOrRaises s t

/-- CMP changes no register, byte of memory or output (10_state.md R25; 43_alu.md, CMP's corner cases). -/
def Obligations.CmpFrame : Prop :=
  ∀ (s t : State) (a b : Byte), exec (.cmp a b) s = .next t →
    (∀ j : RegIx, t.reg j = s.reg j) ∧ sameMemory s t ∧ t.out = s.out ∧ completesOrRaises s t

/-- PUSH changes no register but R7, no flag, no output, and no byte of memory but the one at R7 - 1 (10_state.md R25,
R30; 20_memory.md R63, R64). -/
def Obligations.PushFrame : Prop :=
  ∀ (s t : State) (a : Byte), exec (.push a) s = .next t →
    (∀ j : RegIx, j ≠ 7 → t.reg j = s.reg j) ∧ t.fl = s.fl ∧ t.out = s.out ∧ completesOrRaises s t ∧
      ∀ addr, addr ≠ pushAddr s → byteAt t addr = byteAt s addr

/-- POP changes no register but a and R7, no flag, no output and no byte of memory (10_state.md R25, R30; 20_memory.md
R64). -/
def Obligations.PopFrame : Prop :=
  ∀ (s t : State) (a : Byte), exec (.pop a) s = .next t →
    (∀ j : RegIx, j ≠ 7 → j.val ≠ a.toNat → t.reg j = s.reg j) ∧ t.fl = s.fl ∧ sameMemory s t ∧ t.out = s.out ∧
      completesOrRaises s t

/-! ## Rules of the whole machine -/

/-- Only CMP writes the flags, and it replaces the whole value, whatever the old one; bits 1 and 2 are read by nothing,
bit 0 only through JEQ's and JNE's pc; no register, memory, output or status output depends on the flags
(10_state.md R30). -/
def Obligations.OnlyCmpWritesFlags : Prop :=
  (∀ s t : State, step s = .next t → t.fl ≠ s.fl → runsOpcode s 0xA7) ∧
  (∀ (s t t' : State) (f : FlagBits) (a b : Byte), WellFormed (.cmp a b) →
    exec (.cmp a b) s = .next t → exec (.cmp a b) { s with fl := f } = .next t' → t' = t) ∧
  (∀ (s t t' : State) (f : FlagBits), step s = .next t → step { s with fl := f } = .next t' →
    (f[0] = s.fl[0] → t' = { t with fl := t'.fl }) ∧
    (byteAt s (opAddr s) ≠ 0x55 → byteAt s (opAddr s) ≠ 0x56 → t' = { t with fl := t'.fl }) ∧
    t' = { t with fl := t'.fl, pc := t'.pc }) ∧
  (∀ (s : State) (f : FlagBits), statusOutputs { s with fl := f } = statusOutputs s)

/-- After a CMP that completes the flags hold exactly one of the three values, by the comparison; a step either leaves
the flags as they were or runs a CMP and leaves one of the three values, so any other value is the reset value
(10_state.md R29). -/
def Obligations.FlagsHoldOneOfThree : Prop :=
  (∀ (s t : State) (a b : Byte) (_ : a.toNat < 8) (_ : b.toNat < 8), exec (.cmp a b) s = .next t →
    (t.fl = 0b001 ↔ s.x[a.toNat] = s.x[b.toNat]) ∧ (t.fl = 0b010 ↔ s.x[a.toNat].toNat > s.x[b.toNat].toNat) ∧
    (t.fl = 0b100 ↔ s.x[a.toNat].toNat < s.x[b.toNat].toNat)) ∧
  (∀ s t : State, step s = .next t →
    t.fl = s.fl ∨ (runsOpcode s 0xA7 ∧ (t.fl = 0b001 ∨ t.fl = 0b010 ∨ t.fl = 0b100)))

/-- From every value of the flags exactly one of JEQ and JNE is taken (42_branch.md R123, derived there from R121 and
R122). -/
def Obligations.JeqJneComplement : Prop :=
  ∀ (s : State) (a : Byte) (_ : a.toNat < 8), ∃ e n : State,
    exec (.jeq a) s = .next e ∧ exec (.jne a) s = .next n ∧
      ((e.pc = zext9 s.x[a.toNat] ∧ n.pc = s.pc + 2 ∧ s.fl[0] = true) ∨
        (e.pc = s.pc + 2 ∧ n.pc = zext9 s.x[a.toNat] ∧ s.fl[0] = false))

/-- A step appends to the output exactly what it emits: one byte, the register's, for a PRN that completes, and nothing
for any other instruction or for a fatal error (10_state.md R33, R52, decisions D6, D13; the listing of what a step
emits is the model's, log entry 16). -/
def Obligations.OutputIsWhatPrnEmits : Prop :=
  ∀ s t : State, step s = .next t →
    t.out = s.out ++ stepEmits s ∧ (stepEmits s).length ≤ 1 ∧
      (stepEmits s ≠ [] ↔ runsOpcode s 0x47 ∧ t.run = .running)

/-- The accesses of each instruction that completes: its opcode byte and its operand bytes in order, then PUSH's write
of the new byte, POP's read of the byte at R7, and nothing else (20_memory.md R64, decision D4, log entry 10; the
listing of the accesses is the model's, log entry 16). -/
def Obligations.AccessesOfEachInstruction : Prop :=
  ∀ (s t : State) (i : Instr) (rest : List Byte), s.run = .running → decode (window s) = .ok (i, rest) →
    step s = .next t → t.run ≠ .faulted →
    stepAccesses s =
      ((List.range (encode i).length).map fun k => Access.read (opAddr s + k) (byteAt s (opAddr s + k))) ++
        (match i with
          | .push _ => [.write t.sp.toNat (byteAt t t.sp.toNat)]
          | .pop _ => [.read s.sp.toNat (byteAt s s.sp.toNat)]
          | _ => [])

/-- Memory after a step is memory before it with the port's writes applied; the port carries a write only for PUSH, at
most one, and it never sees an address above 255 (20_memory.md R63, R64; 10_state.md R51, decisions D3, D4, D8; the
listing of the accesses is the model's, log entry 16). -/
def Obligations.MemoryChangesOnlyThroughPort : Prop :=
  ∀ s t : State, step s = .next t →
    t.mem = replay (stepAccesses s) s.mem ∧ (∀ x ∈ stepAccesses s, x.addr ≤ 255) ∧
      ((stepAccesses s).filter isWrite).length ≤ 1 ∧
      ((stepAccesses s).filter isWrite ≠ [] → runsOpcode s 0x45)

/-- A step depends on memory only through the bytes its reads return: over another memory that holds the same bytes at
the addresses read, it makes the same accesses and ends in the same state but for memory (20_memory.md R64, R67, R70,
decision D14, log entry 13; the listing of the accesses is the model's, log entry 16). -/
def Obligations.StepDependsOnlyOnBytesRead : Prop :=
  ∀ (s t : State) (m : List Host.Cell), step s = .next t →
    (∀ addr v, Access.read addr v ∈ stepAccesses s → Memory.read m addr = v) →
    stepAccesses { s with mem := m } = stepAccesses s ∧
      step { s with mem := m } = .next { t with mem := replay (stepAccesses s) m }

/-- A byte written by PUSH is the opcode the very next fetch sees, when it lies there (20_memory.md R73, decision D14,
log entry 13): the next step depends on the pushed byte as on any other opcode byte. -/
def Obligations.PushedByteIsFetchedNext : Prop :=
  ∀ (s t : State) (a : Byte) (_ : a.toNat < 8), runsOpcode s 0x45 → opAddr s < 255 → byteAt s (opAddr s + 1) = a →
    s.x[7].toNat = opAddr s + 3 → step s = .next t →
    byteAt t (opAddr t) = (if a = 7 then s.x[7] - 1 else s.x[a.toNat]) ∧
      (byteAt t (opAddr t) = 0x01 → step t = .next { t with run := .halted, pc := t.pc + 1 })

/-- PUSH of a then POP of b, neither R7, with R7 from 1 to 0xF4: b holds the old a, R7 is as before, and the byte below
it holds the old a (41_stack.md R114, derived there from R110 and R111). -/
def Obligations.PushThenPopRestores : Prop :=
  ∀ (s : State) (a b : Byte) (_ : a.toNat < 7) (hb : b.toNat < 7), s.x[7] ≠ 0 → s.x[7].toNat ≤ 0xF4 →
    ∃ t u : State, exec (.push a) s = .next t ∧ exec (.pop b) t = .next u ∧
      u.x = s.x.set b.toNat s.x[a.toNat] ∧ byteAt u (s.x[7].toNat - 1) = s.x[a.toNat]

/-- A JMP to its own address is a hang: the step leaves the whole state as it was (70_reset_and_hazards.md R186,
decision D24). -/
def Obligations.JmpToItselfHangs : Prop :=
  ∀ (s : State) (a : Byte) (_ : a.toNat < 8), runsOpcode s 0x54 → opAddr s < 255 → byteAt s (opAddr s + 1) = a →
    s.x[a.toNat].toNat = opAddr s → step s = .next s

/-- Every instruction that completes and is no branch leaves pc at p + 1 + n, n its operand count, with no wrap; a
branch leaves p + 2 or the value of its register (10_state.md R27; 30_encoding.md R90; decisions D3, D4, log entry 10). -/
def Obligations.PcAfterCompletion : Prop :=
  ∀ (s t : State) (i : Instr) (rest : List Byte), s.run = .running → decode (window s) = .ok (i, rest) →
    step s = .next t → t.run ≠ .faulted →
    t.pc.toNat = opAddr s + 1 + i.format.operandCount ∨
      ∃ (a : Byte) (_ : a.toNat < 8), (i = .jmp a ∨ i = .jeq a ∨ i = .jne a) ∧ t.pc.toNat = s.x[a.toNat].toNat

/-- A run ends in Halted exactly by HLT and in Faulted exactly by a fatal error, and then shows its output and its
outcome; while Running it shows none (10_state.md R31; 70_reset_and_hazards.md R185, decisions D6, D24; the causes and
their order are decisions D3 to D5, D8, D12, log entries 8, 10, 11). -/
def Obligations.RunEndsByHltOrFault : Prop :=
  ∀ s t : State, s.run = .running → step s = .next t →
    (t.run = .halted ↔ runsOpcode s 0x01) ∧
    (runsOpcode s 0x01 → t.observation = some (s.out, .halted)) ∧
    (∀ r, firstCause s = some r → t.observation = some (s.out, .faulted r.kind)) ∧
    (firstCause s = none → ¬ runsOpcode s 0x01 → t.run = .running ∧ t.observation = none)

/-- Memory reads and writes: an address above 255 raises OutOfRange and is not reduced modulo 256; any other reads or
stores its byte, and a write changes no other address (20_memory.md R62). The recorded address is 9 bits wide (log entry
12): it is the address itself below 512, where every address that the core forms lies (R63), and the address modulo 512
from there up. -/
def Obligations.MemoryPortContract : Prop :=
  ∀ (s : State) (addr : Nat) (v : Byte),
    (addr > 255 → s.memRead addr = .error { kind := .outOfRange, info := BitVec.ofNat 9 addr } ∧
      s.memWrite addr v = .error { kind := .outOfRange, info := BitVec.ofNat 9 addr } ∧
      (addr < 512 → (BitVec.ofNat 9 addr).toNat = addr)) ∧
    (addr ≤ 255 → s.memRead addr = .ok (byteAt s addr) ∧
      ∃ t, s.memWrite addr v = .ok t ∧ t = { s with mem := t.mem } ∧ t.memRead addr = .ok v ∧
        ∀ other, other ≠ addr → t.memRead other = s.memRead other)

/-! ## Reset, load, and the invariant -/

/-- R7 resets to 0xF4 and pc to 0, whatever the open parameters (10_state.md R42, R43). -/
def Obligations.ResetGivenRegisters : Prop :=
  (∀ (g : Vector Byte 7) (f : FlagBits),
    (State.resetWith g f).x[7] = 0xF4 ∧ (State.resetWith g f).pc = 0 ∧ (State.resetWith g f).run = .running) ∧
  State.reset.x[7] = 0xF4 ∧ State.reset.pc = 0 ∧ State.reset.run = .running

/-- R0 to R6 and the flags take the open parameters, the run state is Running, and fault, output and the status outputs
are empty (10_state.md R41, R44 to R46, decisions D6, D10, D11, D13, D18). -/
def Obligations.ResetTakesOpenParameters : Prop :=
  ∀ (g : Vector Byte 7) (f : FlagBits),
    (∀ (k : Nat) (h : k < 7), (State.resetWith g f).x[k] = g[k]) ∧ (State.resetWith g f).fl = f ∧
    (State.resetWith g f).run = .running ∧ (State.resetWith g f).fault = none ∧ (State.resetWith g f).out = [] ∧
    statusOutputs (State.resetWith g f) = { stState := 0, stFaultCode := 0, stFaultPc := 0, stFaultInfo := 0 }

/-- At reset every byte of memory is 0; the loader writes the image into consecutive addresses from 0, and the bytes
it does not cover stay 0 (10_state.md R40). Nothing but memory depends on the image. -/
def Obligations.ResetMemoryAndImage : Prop :=
  ∀ (g : Vector Byte 7) (f : FlagBits),
    (∀ addr, byteAt (State.resetWith g f) addr = 0) ∧
    (∀ image : List Byte, image.length ≤ 256 → ∃ s, State.boot g f image = some s ∧
      s = { State.resetWith g f with mem := s.mem } ∧ ∀ addr, byteAt s addr = image.getD addr 0)

/-- An image of more than 256 bytes starts no run (92_eei_decisions.md D23); its first state otherwise meets the
invariant, and so does the reset state. -/
def Obligations.ResetMeetsInvariant : Prop :=
  State.reset.Inv ∧
  ∀ (g : Vector Byte 7) (f : FlagBits) (image : List Byte),
    (image.length > 256 → State.boot g f image = none) ∧ (∀ s, State.boot g f image = some s → s.Inv)

/-- Every step keeps the invariant: pc from 0 to 256, memory canonical and inside 256 bytes, and a fault record exactly
in Faulted, holding the pc and a value its kind may record (10_state.md R20, R26, R32; 20_memory.md R60;
60_exceptions.md R151; the spec's decisions D3, D6, D7, log entries 10, 12). -/
def Obligations.StepKeepsInvariant : Prop :=
  ∀ s t : State, s.Inv → step s = .next t → t.Inv

/-! ## What the host sees -/

/-- The status outputs follow the run state and the fault record; `st_state` 11 and `st_fault_code` 7 are never driven
(10_state.md R35, the spec's decisions D7, D18, log entry 12). -/
def Obligations.StatusOutputsFollowState : Prop :=
  (∀ s : State, (statusOutputs s).stState ≠ 0b11 ∧ (statusOutputs s).stFaultCode ≠ 7) ∧
  (∀ s : State, s.Inv →
    (s.run = .running → statusOutputs s = { stState := 0b00, stFaultCode := 0, stFaultPc := 0, stFaultInfo := 0 }) ∧
    (s.run = .halted → statusOutputs s = { stState := 0b01, stFaultCode := 0, stFaultPc := 0, stFaultInfo := 0 }) ∧
    (s.run = .faulted → ∃ r, s.fault = some r ∧ statusOutputs s =
      { stState := 0b10, stFaultCode := faultCode r.kind, stFaultPc := s.pc, stFaultInfo := r.info } ∧
      1 ≤ (faultCode r.kind).toNat ∧ (faultCode r.kind).toNat ≤ 6))

/-- The debug snapshot shows pc, the registers, the run state and the flags as a byte with bits 7 to 3 clear
(10_state.md R37, R55, decisions D17, D22). -/
def Obligations.SnapshotShowsState : Prop :=
  ∀ s : State, (snapshot s).pc = s.pc ∧ (snapshot s).x = s.x ∧ (snapshot s).run = s.run ∧
    (∀ (k : Nat) (h : k < 3), (snapshot s).fl[k] = s.fl[k]) ∧
    (∀ (k : Nat) (_ : k < 8), 3 ≤ k → (snapshot s).fl[k] = false)
end

