-- ==== Sys2Proof/Laws/Memory.lean ====
section
/-! SUPPORT. The laws of memory: a read after a write, writes elsewhere, and that every memory operation keeps the
canonical form. -/

namespace Sys2Proof.Machine

/-- Removing an entry: the head goes if it is the address's. -/
theorem Memory.erase_cons (c : Host.Cell) (m : List Host.Cell) (a : Nat) :
    Memory.erase (c :: m) a = if c.1 = a then Memory.erase m a else c :: Memory.erase m a := by
  by_cases h : c.1 = a <;> simp [Memory.erase, h]

/-- Reading at the head of the list and behind it. -/
theorem Memory.read_cons (c : Host.Cell) (m : List Host.Cell) (a : Nat) :
    Memory.read (c :: m) a = if c.1 = a then c.2 else Memory.read m a := rfl

theorem Memory.read_erase_self (m : List Host.Cell) (a : Nat) :
    Memory.read (Memory.erase m a) a = Config.memReset := by
  induction m with
  | nil => rfl
  | cons c m ih =>
    rw [Memory.erase_cons]
    split
    · exact ih
    · next h => rw [Memory.read_cons, if_neg h, ih]

theorem Memory.read_erase_of_ne (m : List Host.Cell) {a b : Nat} (h : b ≠ a) :
    Memory.read (Memory.erase m a) b = Memory.read m b := by
  induction m with
  | nil => rfl
  | cons c m ih =>
    rw [Memory.erase_cons]
    split
    · next hc => rw [ih, Memory.read_cons, if_neg (hc ▸ h.symm)]
    · rw [Memory.read_cons, Memory.read_cons, ih]

theorem Memory.not_mem_erase {m : List Host.Cell} {a : Nat} : ∀ c ∈ Memory.erase m a, c.1 ≠ a := by
  intro c hc
  simpa using (List.mem_filter.mp hc).2

theorem Memory.read_insert_self {m : List Host.Cell} {a : Nat} (v : Byte) (h : ∀ c ∈ m, c.1 ≠ a) :
    Memory.read (Memory.insert m a v) a = v := by
  induction m with
  | nil => simp [Memory.insert, Memory.read]
  | cons c m ih =>
    have hc : c.1 ≠ a := h c (by simp)
    by_cases hlt : a < c.1
    · simp [Memory.insert, hlt, Memory.read]
    · simpa [Memory.insert, hlt, Memory.read, hc] using ih (fun d hd => h d (by simp [hd]))

theorem Memory.read_insert_of_ne (m : List Host.Cell) {a b : Nat} (v : Byte) (h : b ≠ a) :
    Memory.read (Memory.insert m a v) b = Memory.read m b := by
  induction m with
  | nil => simp [Memory.insert, Memory.read, h.symm]
  | cons c m ih =>
    by_cases hlt : a < c.1
    · simp [Memory.insert, hlt, Memory.read, h.symm]
    · simp [Memory.insert, hlt, Memory.read, ih]

/-- A read after a write to the same address gives the byte written (20_memory.md R70). -/
@[simp] theorem Memory.read_write_self (m : List Host.Cell) (a : Nat) (v : Byte) :
    Memory.read (Memory.write m a v) a = v := by
  unfold Memory.write
  split
  · next h => rw [Memory.read_erase_self, h]
  · exact Memory.read_insert_self v Memory.not_mem_erase

/-- A write leaves every other address as it was. -/
theorem Memory.read_write_of_ne (m : List Host.Cell) {a b : Nat} (v : Byte) (h : b ≠ a) :
    Memory.read (Memory.write m a v) b = Memory.read m b := by
  unfold Memory.write
  split
  · exact Memory.read_erase_of_ne m h
  · rw [Memory.read_insert_of_ne _ v h, Memory.read_erase_of_ne m h]

/-- A byte of memory after a write, both cases. -/
theorem Memory.read_write (m : List Host.Cell) (a b : Nat) (v : Byte) :
    Memory.read (Memory.write m a v) b = if b = a then v else Memory.read m b := by
  by_cases h : b = a
  · subst h; simp
  · simp [h, Memory.read_write_of_ne m v h]

theorem Memory.erase_wf {m : List Host.Cell} (a : Nat) (h : Memory.wf m) : Memory.wf (Memory.erase m a) :=
  ⟨h.1.sublist (List.filter_sublist ..), fun c hc => h.2 c (List.mem_filter.mp hc).1⟩

theorem Memory.mem_insert {m : List Host.Cell} {a : Nat} {v : Byte} {c : Host.Cell} :
    c ∈ Memory.insert m a v ↔ c = (a, v) ∨ c ∈ m := by
  induction m with
  | nil => simp [Memory.insert]
  | cons d m ih =>
    unfold Memory.insert
    split
    · simp
    · simp only [List.mem_cons, ih]; tauto

theorem Memory.insert_wf {m : List Host.Cell} {a : Nat} {v : Byte} (ha : a < Config.memSize)
    (hv : v ≠ Config.memReset) (hm : ∀ c ∈ m, c.1 ≠ a) (h : Memory.wf m) : Memory.wf (Memory.insert m a v) := by
  refine ⟨?_, fun c hc => ?_⟩
  · have hs := h.1
    clear h
    induction m with
    | nil => simp [Memory.insert]
    | cons d m ih =>
      rw [List.pairwise_cons] at hs
      have hd : d.1 ≠ a := hm d (by simp)
      unfold Memory.insert
      split
      · next hlt =>
        refine List.pairwise_cons.mpr ⟨fun c hc => ?_, List.pairwise_cons.mpr hs⟩
        rcases List.mem_cons.mp hc with rfl | hc
        · exact hlt
        · exact lt_trans hlt (hs.1 c hc)
      · next hlt =>
        refine List.pairwise_cons.mpr ⟨fun c hc => ?_, ih (fun c hc => hm c (by simp [hc])) hs.2⟩
        rcases Memory.mem_insert.mp hc with rfl | hc
        · show d.1 < a
          omega
        · exact hs.1 c hc
  · rcases Memory.mem_insert.mp hc with rfl | hc
    · exact ⟨ha, hv⟩
    · exact h.2 c hc

/-- A write inside the memory keeps the canonical form. -/
theorem Memory.write_wf {m : List Host.Cell} {a : Nat} (v : Byte) (ha : a < Config.memSize) (h : Memory.wf m) :
    Memory.wf (Memory.write m a v) := by
  unfold Memory.write
  split
  · exact Memory.erase_wf a h
  · next hv => exact Memory.insert_wf ha hv Memory.not_mem_erase (Memory.erase_wf a h)

/-- Writing consecutive bytes keeps the canonical form. -/
theorem Memory.writeList_wf {m : List Host.Cell} (a : Nat) (vs : List Byte) (h : Memory.wf m) :
    Memory.wf (Memory.writeList m a vs) := by
  induction vs generalizing m a with
  | nil => exact h
  | cons v vs ih =>
    refine ih (a + 1) ?_
    split
    · next ha => exact Memory.write_wf v ha h
    · exact h

/-- Writing consecutive bytes leaves every lower address as it was. -/
theorem Memory.read_writeList_of_lt (m : List Host.Cell) {a b : Nat} (vs : List Byte) (h : b < a) :
    Memory.read (Memory.writeList m a vs) b = Memory.read m b := by
  induction vs generalizing m a with
  | nil => rfl
  | cons v vs ih =>
    rw [Memory.writeList, ih _ (Nat.lt_succ_of_lt h)]
    split
    · exact Memory.read_write_of_ne m v (Nat.ne_of_lt h)
    · rfl

/-- The reset memory is in its canonical form. -/
theorem Memory.reset_wf : Memory.wf State.reset.mem := by decide

end Sys2Proof.Machine
end

