-- ==== Sys2Proof/Laws/State.lean ====
section
/-! SUPPORT. What each update of the state does to each field, one lemma a field, true by unfolding, so that no proof
about the machine unfolds a record update; and the register file's read-after-write laws. -/

namespace Sys2Proof.Machine

variable (s : State)

@[simp] theorem State.raise_x (r : Raise) : (s.raise r).x = s.x := rfl
@[simp] theorem State.raise_pc (r : Raise) : (s.raise r).pc = s.pc := rfl
@[simp] theorem State.raise_fl (r : Raise) : (s.raise r).fl = s.fl := rfl
@[simp] theorem State.raise_run (r : Raise) : (s.raise r).run = .faulted := rfl
@[simp] theorem State.raise_fault (r : Raise) : (s.raise r).fault = some { kind := r.kind, fpc := s.pc, info := r.info } := rfl
@[simp] theorem State.raise_mem (r : Raise) : (s.raise r).mem = s.mem := rfl
@[simp] theorem State.raise_out (r : Raise) : (s.raise r).out = s.out := rfl

@[simp] theorem State.setReg_x (i : RegIx) (v : Byte) : (s.setReg i v).x = s.x.set i v := rfl
@[simp] theorem State.setReg_pc (i : RegIx) (v : Byte) : (s.setReg i v).pc = s.pc := rfl
@[simp] theorem State.setReg_fl (i : RegIx) (v : Byte) : (s.setReg i v).fl = s.fl := rfl
@[simp] theorem State.setReg_run (i : RegIx) (v : Byte) : (s.setReg i v).run = s.run := rfl
@[simp] theorem State.setReg_fault (i : RegIx) (v : Byte) : (s.setReg i v).fault = s.fault := rfl
@[simp] theorem State.setReg_mem (i : RegIx) (v : Byte) : (s.setReg i v).mem = s.mem := rfl
@[simp] theorem State.setReg_out (i : RegIx) (v : Byte) : (s.setReg i v).out = s.out := rfl

@[simp] theorem State.setSp_x (v : Byte) : (s.setSp v).x = s.x.set 7 v := rfl
@[simp] theorem State.setSp_pc (v : Byte) : (s.setSp v).pc = s.pc := rfl
@[simp] theorem State.setSp_fl (v : Byte) : (s.setSp v).fl = s.fl := rfl
@[simp] theorem State.setSp_run (v : Byte) : (s.setSp v).run = s.run := rfl
@[simp] theorem State.setSp_fault (v : Byte) : (s.setSp v).fault = s.fault := rfl
@[simp] theorem State.setSp_mem (v : Byte) : (s.setSp v).mem = s.mem := rfl
@[simp] theorem State.setSp_out (v : Byte) : (s.setSp v).out = s.out := rfl

@[simp] theorem State.setPc_x (p : Word9) : (s.setPc p).x = s.x := rfl
@[simp] theorem State.setPc_pc (p : Word9) : (s.setPc p).pc = p := rfl
@[simp] theorem State.setPc_fl (p : Word9) : (s.setPc p).fl = s.fl := rfl
@[simp] theorem State.setPc_run (p : Word9) : (s.setPc p).run = s.run := rfl
@[simp] theorem State.setPc_fault (p : Word9) : (s.setPc p).fault = s.fault := rfl
@[simp] theorem State.setPc_mem (p : Word9) : (s.setPc p).mem = s.mem := rfl
@[simp] theorem State.setPc_out (p : Word9) : (s.setPc p).out = s.out := rfl

@[simp] theorem State.advance_x (n : Nat) : (s.advance n).x = s.x := rfl
@[simp] theorem State.advance_pc (n : Nat) : (s.advance n).pc = s.npc n := rfl
@[simp] theorem State.advance_fl (n : Nat) : (s.advance n).fl = s.fl := rfl
@[simp] theorem State.advance_run (n : Nat) : (s.advance n).run = s.run := rfl
@[simp] theorem State.advance_fault (n : Nat) : (s.advance n).fault = s.fault := rfl
@[simp] theorem State.advance_mem (n : Nat) : (s.advance n).mem = s.mem := rfl
@[simp] theorem State.advance_out (n : Nat) : (s.advance n).out = s.out := rfl

@[simp] theorem State.setFl_x (v : FlagBits) : (s.setFl v).x = s.x := rfl
@[simp] theorem State.setFl_pc (v : FlagBits) : (s.setFl v).pc = s.pc := rfl
@[simp] theorem State.setFl_fl (v : FlagBits) : (s.setFl v).fl = v := rfl
@[simp] theorem State.setFl_run (v : FlagBits) : (s.setFl v).run = s.run := rfl
@[simp] theorem State.setFl_fault (v : FlagBits) : (s.setFl v).fault = s.fault := rfl
@[simp] theorem State.setFl_mem (v : FlagBits) : (s.setFl v).mem = s.mem := rfl
@[simp] theorem State.setFl_out (v : FlagBits) : (s.setFl v).out = s.out := rfl

@[simp] theorem State.halt_x : (s.halt).x = s.x := rfl
@[simp] theorem State.halt_pc : (s.halt).pc = s.pc := rfl
@[simp] theorem State.halt_fl : (s.halt).fl = s.fl := rfl
@[simp] theorem State.halt_run : (s.halt).run = .halted := rfl
@[simp] theorem State.halt_fault : (s.halt).fault = s.fault := rfl
@[simp] theorem State.halt_mem : (s.halt).mem = s.mem := rfl
@[simp] theorem State.halt_out : (s.halt).out = s.out := rfl

@[simp] theorem State.emit_x (v : Byte) : (s.emit v).x = s.x := rfl
@[simp] theorem State.emit_pc (v : Byte) : (s.emit v).pc = s.pc := rfl
@[simp] theorem State.emit_fl (v : Byte) : (s.emit v).fl = s.fl := rfl
@[simp] theorem State.emit_run (v : Byte) : (s.emit v).run = s.run := rfl
@[simp] theorem State.emit_fault (v : Byte) : (s.emit v).fault = s.fault := rfl
@[simp] theorem State.emit_mem (v : Byte) : (s.emit v).mem = s.mem := rfl
@[simp] theorem State.emit_out (v : Byte) : (s.emit v).out = s.out ++ [v] := rfl

/-- The registers of two states with equal register files are equal. -/
theorem State.reg_congr {s t : State} (h : s.x = t.x) (i : RegIx) : s.reg i = t.reg i := by
  simp [State.reg, h]

/-- A register reads as the last value written to it (10_state.md R23). -/
@[simp] theorem State.reg_setReg_self (i : RegIx) (v : Byte) : (s.setReg i v).reg i = v := by
  simp [State.reg, State.setReg]

/-- Writing one register leaves every other register as it was. -/
theorem State.reg_setReg_of_ne {i j : RegIx} (h : j ≠ i) (v : Byte) : (s.setReg i v).reg j = s.reg j := by
  have : i.val ≠ j.val := fun e => h (Fin.ext e.symm)
  simp [State.reg, State.setReg, Vector.getElem_set_ne, this]

/-- A register after a write, both cases. -/
theorem State.reg_setReg (i j : RegIx) (v : Byte) :
    (s.setReg i v).reg j = if j = i then v else s.reg j := by
  by_cases h : j = i
  · subst h; simp
  · simp [h, State.reg_setReg_of_ne s h v]

@[simp] theorem State.sp_setSp (v : Byte) : (s.setSp v).sp = v := State.reg_setReg_self s _ v

@[simp] theorem State.reg_raise (r : Raise) (i : RegIx) : (s.raise r).reg i = s.reg i := rfl
@[simp] theorem State.reg_setPc (p : Word9) (i : RegIx) : (s.setPc p).reg i = s.reg i := rfl
@[simp] theorem State.reg_advance (n : Nat) (i : RegIx) : (s.advance n).reg i = s.reg i := rfl
@[simp] theorem State.reg_setFl (v : FlagBits) (i : RegIx) : (s.setFl v).reg i = s.reg i := rfl
@[simp] theorem State.reg_halt (i : RegIx) : s.halt.reg i = s.reg i := rfl
@[simp] theorem State.reg_emit (v : Byte) (i : RegIx) : (s.emit v).reg i = s.reg i := rfl

/-- The pc after an instruction of n operand bytes that lies inside the memory: p + 1 + n, with no wrap
(10_state.md R27). -/
theorem State.npc_toNat {s : State} {n : Nat} (h : s.pc.toNat + n < 256) : (s.npc n).toNat = s.pc.toNat + 1 + n := by
  simp only [State.npc, BitVec.toNat_add, BitVec.toNat_ofNat]
  omega

end Sys2Proof.Machine
end

