-- ==== Sys2Proof/Laws/Ops.lean ====
section
/-! SUPPORT. For each shared operation, once, everything it can do: its value where it succeeds, what it raises where
it does not, and the inversion of each answer. Later proofs cite these and do not unfold the operations. -/

namespace Sys2Proof.Machine

/-! ## commit -/

@[simp] theorem commit_ok (s t : State) : commit s (.ok t) = .next t := rfl

@[simp] theorem commit_error (s : State) (r : Raise) : commit s (.error r) = .next (s.raise r) := rfl

/-- An instruction always ends in a next state: its own effect, or the fatal error it raises. -/
theorem commit_next {s t : State} {e : Except Raise State} (h : commit s e = .next t) :
    e = .ok t ∨ ∃ r, e = .error r ∧ t = s.raise r := by
  cases e with
  | ok u => exact .inl (by simpa using h)
  | error r => exact .inr ⟨r, rfl, by simpa using h.symm⟩

/-- `commit` neither faults nor refuses. -/
theorem commit_answers_next (s : State) (e : Except Raise State) : ∃ t, commit s e = .next t := by
  cases e <;> exact ⟨_, rfl⟩

@[simp] theorem ok_bind {α β : Type} (v : α) (f : α → Except Raise β) : (Except.ok v >>= f) = f v := rfl

@[simp] theorem error_bind {α β : Type} (r : Raise) (f : α → Except Raise β) :
    ((Except.error r : Except Raise α) >>= f) = .error r := rfl

@[simp] theorem pure_eq_ok {α : Type} (v : α) : (pure v : Except Raise α) = .ok v := rfl

/-! ## Memory port -/

@[simp] theorem memRead_inside {s : State} {addr : Nat} (h : addr < Config.memSize) :
    s.memRead addr = .ok (Memory.read s.mem addr) := if_pos h

@[simp] theorem memRead_outside {s : State} {addr : Nat} (h : ¬ addr < Config.memSize) :
    s.memRead addr = .error (Raise.outOfRange addr) := if_neg h

@[simp] theorem memWrite_inside {s : State} {addr : Nat} (v : Byte) (h : addr < Config.memSize) :
    s.memWrite addr v = .ok { s with mem := Memory.write s.mem addr v } := if_pos h

@[simp] theorem memWrite_outside {s : State} {addr : Nat} (v : Byte) (h : ¬ addr < Config.memSize) :
    s.memWrite addr v = .error (Raise.outOfRange addr) := if_neg h

/-- Everything a memory read can do. -/
theorem memRead_cases (s : State) (addr : Nat) :
    (addr < Config.memSize ∧ s.memRead addr = .ok (Memory.read s.mem addr)) ∨
      (¬ addr < Config.memSize ∧ s.memRead addr = .error (Raise.outOfRange addr)) := by
  by_cases h : addr < Config.memSize
  · exact .inl ⟨h, memRead_inside h⟩
  · exact .inr ⟨h, memRead_outside h⟩

/-! ## Operands -/

@[simp] theorem regOperand_ok {a : Byte} (h : a.toNat < 8) : regOperand a = .ok ⟨a.toNat, h⟩ := dif_pos h

@[simp] theorem regOperand_error {a : Byte} (h : ¬ a.toNat < 8) :
    regOperand a = .error (Raise.invalidRegister a) := dif_neg h

/-- Everything the register check can do (30_encoding.md R92). -/
theorem regOperand_cases (a : Byte) :
    (∃ h : a.toNat < 8, regOperand a = .ok ⟨a.toNat, h⟩) ∨
      (¬ a.toNat < 8 ∧ regOperand a = .error (Raise.invalidRegister a)) := by
  by_cases h : a.toNat < 8
  · exact .inl ⟨h, regOperand_ok h⟩
  · exact .inr ⟨h, regOperand_error h⟩

/-- PUSH's address is always inside the memory (20_memory.md R63). -/
theorem pushAddr_lt (s : State) : pushAddr s < Config.memSize := (s.sp - 1).isLt

/-- Everything PUSH's decrement can do (41_stack.md R112). -/
theorem predecrement_cases (s : State) :
    (s.sp ≠ 0 ∧ predecrement s = .ok (s.setSp (s.sp - 1))) ∨
      (s.sp = 0 ∧ predecrement s = .error (Raise.stackOverflow s.sp)) := by
  by_cases h : s.sp = 0
  · exact .inr ⟨h, if_pos h⟩
  · exact .inl ⟨h, if_neg h⟩

/-- Everything POP's address can do (41_stack.md R112). -/
theorem popAddr_cases (s : State) :
    (¬ s.sp ≥ Config.stackTop ∧ popAddr s = .ok s.sp.toNat) ∨
      (s.sp ≥ Config.stackTop ∧ popAddr s = .error (Raise.stackUnderflow s.sp)) := by
  by_cases h : s.sp ≥ Config.stackTop
  · exact .inr ⟨h, if_pos h⟩
  · exact .inl ⟨h, if_neg h⟩

/-! ## Fetch -/

@[simp] theorem readBytes_zero (s : State) (addr : Nat) : s.readBytes addr 0 = .ok [] := by
  unfold State.readBytes; rfl

theorem readBytes_succ (s : State) (addr n : Nat) :
    s.readBytes addr (n + 1) = (s.memRead addr >>= fun v => s.readBytes (addr + 1) n >>= fun vs => .ok (v :: vs)) := by
  rw [State.readBytes]; rfl

/-- The operand bytes of an instruction inside the memory: the bytes at consecutive addresses. -/
theorem readBytes_inside {s : State} {addr n : Nat} (h : addr + n ≤ Config.memSize) :
    s.readBytes addr n = .ok ((List.range n).map (fun k => Memory.read s.mem (addr + k))) := by
  induction n generalizing addr with
  | zero => simp
  | succ n ih =>
    have h0 : addr < Config.memSize := by omega
    rw [readBytes_succ, memRead_inside h0, ok_bind, ih (by omega), ok_bind]
    simp [List.range_succ_eq_map, Function.comp_def, Nat.add_comm, Nat.add_left_comm]

/-- Reading past the top of memory raises OutOfRange at the first address above 255, which is 256
(30_encoding.md R91). -/
theorem readBytes_outside {s : State} {addr n : Nat} (h1 : addr ≤ Config.memSize) (h2 : Config.memSize < addr + n) :
    s.readBytes addr n = .error (Raise.outOfRange 256) := by
  induction n generalizing addr with
  | zero => omega
  | succ n ih =>
    rw [readBytes_succ]
    by_cases h : addr < Config.memSize
    · rw [memRead_inside h, ok_bind, ih (by omega) (by omega), error_bind]
    · rw [memRead_outside h, error_bind, show addr = 256 by unfold Config.memSize at *; omega]

/-! ## Flags -/

/-- CMP's flags are exactly one of E, G and L (10_state.md R29). -/
theorem cmpFlags_cases (u v : Byte) :
    (u = v ∧ cmpFlags u v = 0b001) ∨ (u > v ∧ cmpFlags u v = 0b010) ∨ (u < v ∧ cmpFlags u v = 0b100) := by
  unfold cmpFlags
  split
  · next h => exact .inl ⟨h, rfl⟩
  · next h =>
    split
    · next hg => exact .inr (.inl ⟨hg, rfl⟩)
    · next hg => exact .inr (.inr ⟨by bv_omega, rfl⟩)

end Sys2Proof.Machine
end

