-- ==== Sys2Proof/Laws/PerInstr.lean ====
section
/-! SUPPORT. What holds of every instruction as syntax, one lemma for each constructor. -/

namespace Sys2Proof.Laws

namespace EncodingShape

/-- The encoding of an instruction begins with a valid opcode whose bits 7:6 are the number of the operand bytes that
follow, which is its format's (30_encoding.md R80 to R82, R85), and whose bit 5 is set exactly if the format is that of
two register operands, the ALU's (R83). -/
def Statement (i : Instr) : Prop :=
  ∃ op operands, encode i = op :: operands ∧ isOpcode op = true ∧ opcodeCount op = operands.length ∧
    operands.length = i.format.operandCount ∧ (opcodeAlu op = true ↔ i.format = .f2rr)

theorem hlt : Statement .hlt :=
  ⟨0x01, [], rfl, by decide, (by decide : opcodeCount 0x01 = 0), rfl,
    (by decide : opcodeAlu 0x01 = true ↔ Format.f0 = .f2rr)⟩
theorem ldi (a b : Byte) : Statement (.ldi a b) :=
  ⟨0x82, [a, b], rfl, by decide, (by decide : opcodeCount 0x82 = 2), rfl,
    (by decide : opcodeAlu 0x82 = true ↔ Format.f2ri = .f2rr)⟩
theorem prn (a : Byte) : Statement (.prn a) :=
  ⟨0x47, [a], rfl, by decide, (by decide : opcodeCount 0x47 = 1), rfl,
    (by decide : opcodeAlu 0x47 = true ↔ Format.f1r = .f2rr)⟩
theorem push (a : Byte) : Statement (.push a) :=
  ⟨0x45, [a], rfl, by decide, (by decide : opcodeCount 0x45 = 1), rfl,
    (by decide : opcodeAlu 0x45 = true ↔ Format.f1r = .f2rr)⟩
theorem pop (a : Byte) : Statement (.pop a) :=
  ⟨0x46, [a], rfl, by decide, (by decide : opcodeCount 0x46 = 1), rfl,
    (by decide : opcodeAlu 0x46 = true ↔ Format.f1r = .f2rr)⟩
theorem jmp (a : Byte) : Statement (.jmp a) :=
  ⟨0x54, [a], rfl, by decide, (by decide : opcodeCount 0x54 = 1), rfl,
    (by decide : opcodeAlu 0x54 = true ↔ Format.f1r = .f2rr)⟩
theorem jeq (a : Byte) : Statement (.jeq a) :=
  ⟨0x55, [a], rfl, by decide, (by decide : opcodeCount 0x55 = 1), rfl,
    (by decide : opcodeAlu 0x55 = true ↔ Format.f1r = .f2rr)⟩
theorem jne (a : Byte) : Statement (.jne a) :=
  ⟨0x56, [a], rfl, by decide, (by decide : opcodeCount 0x56 = 1), rfl,
    (by decide : opcodeAlu 0x56 = true ↔ Format.f1r = .f2rr)⟩
theorem add (a b : Byte) : Statement (.add a b) :=
  ⟨0xA0, [a, b], rfl, by decide, (by decide : opcodeCount 0xA0 = 2), rfl,
    (by decide : opcodeAlu 0xA0 = true ↔ Format.f2rr = .f2rr)⟩
theorem mul (a b : Byte) : Statement (.mul a b) :=
  ⟨0xA2, [a, b], rfl, by decide, (by decide : opcodeCount 0xA2 = 2), rfl,
    (by decide : opcodeAlu 0xA2 = true ↔ Format.f2rr = .f2rr)⟩
theorem cmp (a b : Byte) : Statement (.cmp a b) :=
  ⟨0xA7, [a, b], rfl, by decide, (by decide : opcodeCount 0xA7 = 2), rfl,
    (by decide : opcodeAlu 0xA7 = true ↔ Format.f2rr = .f2rr)⟩

end EncodingShape

end Sys2Proof.Laws
end

