-- ==== Sys2Proof/Tests/Slice0.lean ====
section
/-! SUPPORT. The model's own tests. Expected results are the spec's: 95_test_vectors.md sections 1 and 2 and the
examples of 40_basic.md to 43_alu.md. After them, for each statement with hypotheses, a witness that meets them. -/

namespace Sys2Proof.Tests

open Sys2Proof Sys2Proof.Machine Sys2Proof.Claims

/-- A running machine with the given code at p and the given registers and flags. -/
def machineAt (p : Nat) (code : List Byte) (x : Vector Byte 8) (fl : FlagBits) : State where
  x := x
  pc := BitVec.ofNat 9 p
  fl := fl
  run := .running
  fault := none
  mem := Memory.writeList [] p code
  out := []

/-- Registers of the tests: R0 and R1 given, R7 given, the rest 0. -/
def regs (r0 r1 sp : Byte) : Vector Byte 8 := #v[r0, r1, 0, 0, 0, 0, 0, sp]

/-- The state after one step, where there is one. -/
def after (s : State) : Option State :=
  match step s with
  | .next t => some t
  | .fault _ => none
  | .refused _ => none

/-- A fact about the state after one step. -/
def shows {α : Type} (s : State) (f : State → α) : Option α := (after s).map f

/-- The fault record after one step. -/
def faultAfter (s : State) : Option FaultRecord := (after s).bind (fun t => t.fault)

/-! ## WellFormed refuses each ill-formed operand -/

theorem test_wf_accepts : WellFormed (.ldi 7 255) ∧ WellFormed (.add 0 7) ∧ WellFormed .hlt := by decide
theorem test_wf_ldi_register : ¬ WellFormed (.ldi 8 0) := by decide
theorem test_wf_prn_register : ¬ WellFormed (.prn 9) := by decide
theorem test_wf_push_register : ¬ WellFormed (.push 8) := by decide
theorem test_wf_pop_register : ¬ WellFormed (.pop 0xFF) := by decide
theorem test_wf_jmp_register : ¬ WellFormed (.jmp 8) := by decide
theorem test_wf_jeq_register : ¬ WellFormed (.jeq 8) := by decide
theorem test_wf_jne_register : ¬ WellFormed (.jne 8) := by decide
theorem test_wf_add_first : ¬ WellFormed (.add 8 0) := by decide
theorem test_wf_add_second : ¬ WellFormed (.add 0 9) := by decide
theorem test_wf_mul_second : ¬ WellFormed (.mul 0 8) := by decide
theorem test_wf_cmp_second : ¬ WellFormed (.cmp 0 8) := by decide

/-! ## Decode: words written out from 30_encoding.md R87 and the encodings of each rule -/

theorem test_decode_hlt : decode [0b00000001] = .ok (.hlt, []) := by rfl
theorem test_decode_ldi : decode [0b10000010, 0b00000000, 0b00001000] = .ok (.ldi 0 8, []) := by rfl
theorem test_decode_prn : decode [0b01000111, 0b00000111] = .ok (.prn 7, []) := by rfl
theorem test_decode_push : decode [0b01000101, 0b00000001] = .ok (.push 1, []) := by rfl
theorem test_decode_pop : decode [0b01000110, 0b00000010] = .ok (.pop 2, []) := by rfl
theorem test_decode_jmp : decode [0b01010100, 0b00000011] = .ok (.jmp 3, []) := by rfl
theorem test_decode_jeq : decode [0b01010101, 0b00000100] = .ok (.jeq 4, []) := by rfl
theorem test_decode_jne : decode [0b01010110, 0b00000101] = .ok (.jne 5, []) := by rfl
theorem test_decode_add : decode [0b10100000, 0b00000000, 0b00000001] = .ok (.add 0 1, []) := by rfl
theorem test_decode_mul : decode [0b10100010, 0b00000010, 0b00000101] = .ok (.mul 2 5, []) := by rfl
theorem test_decode_cmp : decode [0b10100111, 0b00000110, 0b00000000] = .ok (.cmp 6 0, []) := by rfl

/-- The same identity as LDI and MUL, but a different byte (95_test_vectors.md 2.1). -/
theorem test_decode_02 : decode [0x02, 0, 0] = .error (.invalidInstruction 0x02) := by rfl
theorem test_decode_C0 : decode [0xC0, 0, 0] = .error (.invalidInstruction 0xC0) := by rfl
theorem test_decode_A1 : decode [0xA1, 0, 0] = .error (.unsupportedOperation 0xA1) := by rfl
theorem test_decode_FF : decode [0xFF, 0, 0] = .error (.unsupportedOperation 0xFF) := by rfl
theorem test_decode_short : decode [0x82, 0] = .error (.missingByte 2) := by rfl

/-- The opcode table numbers an instruction's bits from the first byte's least significant bit. -/
theorem test_table_word : decodeTableWord 24 0x080382 = some (.ldi 3 8) := by decide
theorem test_table_word_short : decodeTableWord 8 0xFFFF47 = some (.prn 0) := by decide

/-- R94's and R95's example. -/
theorem test_assembly : (Instr.ldi 0 8).assembly = "LDI R0, 8" ∧ encode (.ldi 0 8) = [0b10000010, 0b00000000, 0b00001000] := by
  decide

/-! ## One step of each instruction (95_test_vectors.md section 2) -/

/-- `01` at 16. -/
theorem test_hlt : shows (machineAt 0x16 [0x01] (regs 5 6 0xF4) 2) (fun t => (t.run, t.pc, t.fl)) =
    some (.halted, 0x17, 2) := by decide
/-- `01` at FF: pc = 256. -/
theorem test_hlt_at_top : shows (machineAt 0xFF [0x01] (regs 0 0 0xF4) 0) (fun t => (t.run, t.pc)) =
    some (.halted, 0x100) := by decide
/-- `82 07 10`: the stack pointer moves. -/
theorem test_ldi_sp : shows (machineAt 0 [0x82, 0x07, 0x10] (regs 1 2 0xF4) 0) (fun t => (t.sp, t.reg 0, t.pc)) =
    some (0x10, 1, 3) := by decide
/-- `82 08 05`. -/
theorem test_ldi_bad_register : faultAfter (machineAt 0 [0x82, 0x08, 0x05] (regs 1 2 0xF4) 0) =
    some { kind := .invalidRegister, fpc := 0, info := 8 } := by decide
/-- `47 00` with x[0] = 8. -/
theorem test_prn : shows (machineAt 0 [0x47, 0x00] (regs 8 0 0xF4) 0) (fun t => (t.out, t.pc)) =
    some ([8], 2) := by decide
/-- PRN at FF: the operand fetch faults, nothing is emitted. -/
theorem test_prn_at_top : faultAfter (machineAt 0xFF [0x47] (regs 8 0 0xF4) 0) =
    some { kind := .outOfRange, fpc := 0xFF, info := 0x100 } := by decide
/-- `45 07` with x[7] = F4 stores F3. -/
theorem test_push_sp : shows (machineAt 0 [0x45, 0x07] (regs 0 0 0xF4) 0) (fun t => (t.sp, byteAt t 0xF3, t.pc)) =
    some (0xF3, 0xF3, 2) := by decide
/-- `45 00` with x[7] = 01 overwrites its own opcode. -/
theorem test_push_own_opcode : shows (machineAt 0 [0x45, 0x00] (regs 0x5A 0 0x01) 0) (fun t => (t.sp, byteAt t 0)) =
    some (0x00, 0x5A) := by decide
/-- `46 07` with x[7] = F3 and FF there: 0, no fault. -/
theorem test_pop_sp : shows { machineAt 0 [0x46, 0x07] (regs 0 0 0xF3) 0 with mem := [(0, 0x46), (1, 7), (0xF3, 0xFF)] }
    (fun t => (t.sp, t.run, byteAt t 0xF3)) = some (0, .running, 0xFF) := by decide
/-- `46 00` with the stack empty. -/
theorem test_pop_empty : faultAfter (machineAt 0 [0x46, 0x00] (regs 0 0 0xF4) 0) =
    some { kind := .stackUnderflow, fpc := 0, info := 0xF4 } := by decide
/-- `54 01` with x[1] = FF. -/
theorem test_jmp : shows (machineAt 0 [0x54, 0x01] (regs 0 0xFF 0xF4) 0) (fun t => t.pc) = some 0xFF := by decide
/-- `55 01` with fl = 011, a reset value only: taken. -/
theorem test_jeq_taken : shows (machineAt 0 [0x55, 0x01] (regs 0 0x15 0xF4) 0b011) (fun t => t.pc) = some 0x15 := by
  decide
/-- `55 08` not taken: the register is checked all the same. -/
theorem test_jeq_bad_register : faultAfter (machineAt 0 [0x55, 0x08] (regs 0 0 0xF4) 0) =
    some { kind := .invalidRegister, fpc := 0, info := 8 } := by decide
/-- `56 01` with fl = 001: not taken. -/
theorem test_jne_not_taken : shows (machineAt 0 [0x56, 0x01] (regs 0 0x15 0xF4) 0b001) (fun t => t.pc) = some 2 := by
  decide
/-- `56 00` with fl = 000, a reset value only: taken. -/
theorem test_jne_taken : shows (machineAt 0 [0x56, 0x00] (regs 0x10 0 0xF4) 0b000) (fun t => t.pc) = some 0x10 := by
  decide
/-- `A0 00 01`: 255 + 2 gives 1, flags unchanged. -/
theorem test_add_wraps : shows (machineAt 0 [0xA0, 0x00, 0x01] (regs 255 2 0xF4) 0b100) (fun t => (t.reg 0, t.reg 1, t.fl)) =
    some (1, 2, 0b100) := by decide
/-- `A0 07 00`: the stack pointer moves without a stack check. -/
theorem test_add_sp : shows (machineAt 0 [0xA0, 0x07, 0x00] (regs 0x0C 0 0xF4) 0) (fun t => (t.sp, t.run)) =
    some (0, .running) := by decide
/-- `A2 00 01`: 7 times 40 gives 24. -/
theorem test_mul_wraps : shows (machineAt 0 [0xA2, 0x00, 0x01] (regs 7 40 0xF4) 0) (fun t => t.reg 0) = some 24 := by
  decide
/-- `A2 0A 09`: a is reported before b. -/
theorem test_mul_bad_registers : faultAfter (machineAt 0 [0xA2, 0x0A, 0x09] (regs 0 0 0xF4) 0) =
    some { kind := .invalidRegister, fpc := 0, info := 0x0A } := by decide
/-- 80 against 7F is greater: the comparison is unsigned; the old flags go. -/
theorem test_cmp_unsigned : shows (machineAt 0 [0xA7, 0x00, 0x01] (regs 0x80 0x7F 0xF4) 0b111) (fun t => t.fl) =
    some 0b010 := by decide
/-- 00 against FF is less. -/
theorem test_cmp_less : shows (machineAt 0 [0xA7, 0x00, 0x01] (regs 0 0xFF 0xF4) 0) (fun t => (t.fl, t.x)) =
    some (0b100, regs 0 0xFF 0xF4) := by decide

/-! ## The cycle -/

/-- POP at FF with the stack empty: the operand fetch comes first (95_test_vectors.md 2.2). -/
theorem test_fetch_before_stack : faultAfter (machineAt 0xFF [0x46] (regs 0 0 0xF4) 0) =
    some { kind := .outOfRange, fpc := 0xFF, info := 0x100 } := by decide
/-- A1 at FF: decode comes before the operand fetch. -/
theorem test_decode_before_fetch : faultAfter (machineAt 0xFF [0xA1] (regs 0 0 0xF4) 0) =
    some { kind := .unsupportedOperation, fpc := 0xFF, info := 0xA1 } := by decide
/-- LDI at FD completes with pc = 256; the next step raises OutOfRange there. -/
theorem test_run_off_the_top : ((after (machineAt 0xFD [0x82, 0x00, 0x07] (regs 0 0 0xF4) 0)).bind after).bind
    (fun t => t.fault) = some { kind := .outOfRange, fpc := 0x100, info := 0x100 } := by decide
/-- Nothing loaded: the first step from reset fetches 00 (95_test_vectors.md E8). -/
theorem test_reset_with_nothing_loaded : faultAfter State.reset =
    some { kind := .invalidInstruction, fpc := 0, info := 0 } := by decide
/-- An instruction placed for the fetch runs as the first one after reset. -/
theorem test_fetch_word : shows (State.reset.withFetchWord 24 0x080382) (fun t => (t.reg 3, t.pc, t.run)) =
    some (8, 3, .running) := by decide
/-- An image is loaded from address 0; one of 257 bytes is refused. -/
theorem test_boot : (State.boot Config.initGpr 0b101 [0x82, 0, 8]).map (fun s => (s.mem, s.fl)) =
    some ([(0, 0x82), (2, 8)], 0b101) := by decide
theorem test_boot_too_long : State.boot Config.initGpr 0 (List.replicate 257 1) = none :=
  if_neg (by rw [List.length_replicate]; decide)
/-- The status outputs of a faulted machine. -/
theorem test_status : shows (machineAt 5 [0x46, 0x00] (regs 0 0 0xFE) 0) statusOutputs =
    some { stState := 0b10, stFaultCode := 6, stFaultPc := 5, stFaultInfo := 0xFE } := by decide

/-! ## Witnesses: states and operands that meet the hypotheses of the statements, each clause at its boundary -/

theorem witness_EncodeOfDecode : decode [0x47, 7, 1] = .ok (.prn 7, [1]) := by rfl

theorem witness_IllegalOpcodesRejected : (0x00 : Byte) ∉ validOpcodes ∧ (0xFF : Byte) ∉ validOpcodes := by decide

theorem witness_StepRunsDecodedInstruction :
    decode (window (machineAt 0xFF [0x01] (regs 0 0 0xF4) 0)) = .ok (.hlt, []) ∧
    decode (window (machineAt 0xFD [0x82, 7, 9] (regs 0 0 0xF4) 0)) = .ok (.ldi 7 9, []) := ⟨rfl, rfl⟩

theorem witness_NoStepWhenTerminal :
    { State.reset with run := .halted }.terminal ∧ { State.reset with run := .faulted }.terminal := by decide

theorem witness_RunningAlwaysSteps : (machineAt 256 [] (regs 0 0 0) 0).run = .running := rfl

/-- Every cause of FirstCauseIsRaised, and no cause, each at its boundary. -/
theorem witness_FirstCauseIsRaised :
    (firstCause (machineAt 256 [] (regs 0 0 0xF4) 0) = some { kind := .outOfRange, info := 256 } ∧
    firstCause (machineAt 255 [0xC0] (regs 0 0 0xF4) 0) = some { kind := .invalidInstruction, info := 0xC0 } ∧
    firstCause (machineAt 255 [0xA1] (regs 0 0 0xF4) 0) = some { kind := .unsupportedOperation, info := 0xA1 } ∧
    firstCause (machineAt 255 [0x46] (regs 0 0 0xF4) 0) = some { kind := .outOfRange, info := 256 } ∧
    firstCause (machineAt 254 [0xA0, 9] (regs 0 0 0xF4) 0) = some { kind := .outOfRange, info := 256 }) ∧
    (firstCause (machineAt 253 [0xA0, 8, 9] (regs 0 0 0xF4) 0) = some { kind := .invalidRegister, info := 8 } ∧
    firstCause (machineAt 253 [0xA0, 7, 8] (regs 0 0 0xF4) 0) = some { kind := .invalidRegister, info := 8 } ∧
    firstCause (machineAt 254 [0x45, 7] (regs 0 0 0) 0) = some { kind := .stackOverflow, info := 0 } ∧
    firstCause (machineAt 254 [0x46, 7] (regs 0 0 0xF4) 0) = some { kind := .stackUnderflow, info := 0xF4 } ∧
    firstCause (machineAt 253 [0x82, 7, 8] (regs 0 0 0) 0) = none ∧
    firstCause (machineAt 254 [0x45, 7] (regs 0 0 1) 0) = none ∧
    firstCause (machineAt 254 [0x46, 7] (regs 0 0 0xF3) 0) = none) := by decide

theorem witness_FaultsArePrecise : ∃ t, step (machineAt 0 [0x45, 0] (regs 0 0 0) 0) = .next t ∧ t.run = .faulted :=
  ⟨_, rfl, rfl⟩

theorem witness_HltStep : runsOpcode (machineAt 255 [0x01] (regs 0 0 0) 0) 0x01 ∧
    opAddr (machineAt 256 [] (regs 0 0 0) 0) = 256 := by decide

/-- LDI: the top, a = 8 and a = 7. -/
theorem witness_LdiStep :
    (runsOpcode (machineAt 254 [0x82, 7] (regs 0 0 0) 0) 0x82 ∧ opAddr (machineAt 254 [0x82, 7] (regs 0 0 0) 0) ≥ 254) ∧
    (runsOpcode (machineAt 253 [0x82, 8, 1] (regs 0 0 0) 0) 0x82 ∧
      byteAt (machineAt 253 [0x82, 8, 1] (regs 0 0 0) 0) 254 = 8) ∧
    (runsOpcode (machineAt 253 [0x82, 7, 1] (regs 0 0 0) 0) 0x82 ∧
      byteAt (machineAt 253 [0x82, 7, 1] (regs 0 0 0) 0) 254 = 7) := by decide

/-- A two-byte instruction of the given opcode: the top, a = 8 and a = 7 at the highest place it fits. -/
abbrev oneOperandWitness (op : Byte) (sp : Byte) (fl : FlagBits) : Prop :=
  (runsOpcode (machineAt 255 [op] (regs 0 0 sp) fl) op ∧ opAddr (machineAt 255 [op] (regs 0 0 sp) fl) = 255) ∧
  (runsOpcode (machineAt 254 [op, 8] (regs 0 0 sp) fl) op ∧ byteAt (machineAt 254 [op, 8] (regs 0 0 sp) fl) 255 = 8) ∧
  (runsOpcode (machineAt 254 [op, 7] (regs 0 0 sp) fl) op ∧ byteAt (machineAt 254 [op, 7] (regs 0 0 sp) fl) 255 = 7)

theorem witness_PrnStep : oneOperandWitness 0x47 0 0 := by decide
/-- PUSH: also R7 = 0 and R7 = 1. -/
theorem witness_PushStep : oneOperandWitness 0x45 0 0 ∧ oneOperandWitness 0x45 1 0 := by decide
/-- POP: also R7 = F4 and R7 = F3, the latter for a = 7 and a = 6. -/
theorem witness_PopStep : oneOperandWitness 0x46 0xF4 0 ∧ oneOperandWitness 0x46 0xF3 0 ∧
    byteAt (machineAt 254 [0x46, 6] (regs 0 0 0xF3) 0) 255 = 6 := by decide
theorem witness_JmpStep : oneOperandWitness 0x54 0 0 := by decide
/-- JEQ and JNE: also bit 0 of the flags 0 and 1. -/
theorem witness_JeqStep : oneOperandWitness 0x55 0 0b110 ∧ oneOperandWitness 0x55 0 0b001 := by decide
theorem witness_JneStep : oneOperandWitness 0x56 0 0b110 ∧ oneOperandWitness 0x56 0 0b001 := by decide

/-- An ALU instruction of the given opcode: the top, a = 8, b = 8 and both 7. -/
abbrev aluWitness (op : Byte) : Prop :=
  (runsOpcode (machineAt 254 [op, 7] (regs 0 0 0) 0) op ∧ opAddr (machineAt 254 [op, 7] (regs 0 0 0) 0) ≥ 254) ∧
  (runsOpcode (machineAt 253 [op, 8, 8] (regs 0 0 0) 0) op ∧ byteAt (machineAt 253 [op, 8, 8] (regs 0 0 0) 0) 254 = 8) ∧
  (runsOpcode (machineAt 253 [op, 7, 8] (regs 0 0 0) 0) op ∧ byteAt (machineAt 253 [op, 7, 8] (regs 0 0 0) 0) 254 = 7 ∧
    byteAt (machineAt 253 [op, 7, 8] (regs 0 0 0) 0) 255 = 8) ∧
  (runsOpcode (machineAt 253 [op, 7, 7] (regs 0 0 0) 0) op ∧ byteAt (machineAt 253 [op, 7, 7] (regs 0 0 0) 0) 254 = 7 ∧
    byteAt (machineAt 253 [op, 7, 7] (regs 0 0 0) 0) 255 = 7)

theorem witness_AddStep : aluWitness 0xA0 := by decide
theorem witness_MulStep : aluWitness 0xA2 := by decide
theorem witness_CmpStep : aluWitness 0xA7 := by decide

/-- The register operands of the completion statements (BasicInstructionsComplete, BranchesComplete,
AluInstructionsComplete, JeqJneComplement, FlagsHoldOneOfThree), at the boundary. -/
theorem witness_registers_complete : (7 : Byte).toNat < 8 ∧ (0 : Byte).toNat < 8 := by decide

/-- PUSH with R7 = 1, POP with R7 = F3. -/
theorem witness_StackInstructionsComplete :
    (machineAt 0 [] (regs 0 0 1) 0).x[7] ≠ 0 ∧ (machineAt 0 [] (regs 0 0 0xF3) 0).x[7].toNat < 0xF4 := by decide

theorem witness_BadRegisterRaises :
    (Instr.ldi 8 0).regOperands.find? (fun a => 8 ≤ a.toNat) = some 8 ∧
    (Instr.add 7 255).regOperands.find? (fun a => 8 ≤ a.toNat) = some 255 := by decide

theorem witness_StackExhaustionRaises :
    (machineAt 0 [] (regs 0 0 0) 0).x[7] = 0 ∧ (machineAt 0 [] (regs 0 0 0xF4) 0).x[7].toNat ≥ 0xF4 := by decide

/-- The frames (RegisterResultFrame, HltFrame, PrnFrame, BranchFrame, CmpFrame, PushFrame, PopFrame): each instruction
completes from a state, and one that takes a register raises from it. -/
theorem witness_frames :
    (∃ t, exec (.ldi 7 1) State.reset = .next t) ∧ (∃ t, exec (.add 7 7) State.reset = .next t) ∧
    (∃ t, exec (.mul 7 8) State.reset = .next t) ∧ (∃ t, exec .hlt State.reset = .next t) ∧
    (∃ t, exec (.prn 7) State.reset = .next t) ∧ (∃ t, exec (.prn 8) State.reset = .next t) ∧
    (∃ t, exec (.jmp 7) State.reset = .next t) ∧ (∃ t, exec (.jeq 7) State.reset = .next t) ∧
    (∃ t, exec (.jne 8) State.reset = .next t) ∧ (∃ t, exec (.cmp 7 0) State.reset = .next t) ∧
    (∃ t, exec (.push 7) State.reset = .next t) ∧ (∃ t, exec (.pop 7) State.reset = .next t) :=
  ⟨⟨_, rfl⟩, ⟨_, rfl⟩, ⟨_, rfl⟩, ⟨_, rfl⟩, ⟨_, rfl⟩, ⟨_, rfl⟩, ⟨_, rfl⟩, ⟨_, rfl⟩, ⟨_, rfl⟩, ⟨_, rfl⟩, ⟨_, rfl⟩, ⟨_, rfl⟩⟩

/-- A CMP that changes the flags; a well-formed CMP over two flag values; flags that agree in bit 0; an opcode that is
neither JEQ nor JNE. -/
theorem witness_OnlyCmpWritesFlags :
    shows (machineAt 0 [0xA7, 0, 1] (regs 1 1 0) 0) (fun t => t.fl) = some 0b001 ∧
    WellFormed (.cmp 0 7) ∧
    (∃ t, exec (.cmp 0 7) (machineAt 0 [] (regs 1 1 0) 0) = .next t) ∧
    (∃ t, exec (.cmp 0 7) { machineAt 0 [] (regs 1 1 0) 0 with fl := 7 } = .next t) ∧
    (∃ t, step (machineAt 0 [0x55, 1] (regs 1 1 0) 0b010) = .next t) ∧
    (∃ t, step { machineAt 0 [0x55, 1] (regs 1 1 0) 0b010 with fl := 0b100 } = .next t) ∧
    (0b100 : FlagBits)[0] = (machineAt 0 [0x55, 1] (regs 1 1 0) 0b010).fl[0] ∧
    byteAt (machineAt 0 [0xA7, 0, 1] (regs 1 1 0) 0) 0 ≠ 0x55 :=
  ⟨by decide, by decide, ⟨_, rfl⟩, ⟨_, rfl⟩, ⟨_, rfl⟩, ⟨_, rfl⟩, by decide, by decide⟩

/-- A CMP, a step that runs one and changes the flags, and a step that leaves them as they were. -/
theorem witness_FlagsHoldOneOfThree : (∃ t, exec (.cmp 7 0) State.reset = .next t) ∧
    runsOpcode (machineAt 253 [0xA7, 0, 1] (regs 1 2 0) 0b111) 0xA7 ∧
    shows (machineAt 253 [0xA7, 0, 1] (regs 1 2 0) 0b111) (fun t => t.fl) = some 0b100 ∧
    shows (machineAt 253 [0xA0, 0, 1] (regs 1 2 0) 0b111) (fun t => t.fl) = some 0b111 :=
  ⟨⟨_, rfl⟩, by decide, by decide, by decide⟩

/-- The hypothesis `step s = next t` of OutputIsWhatPrnEmits and MemoryChangesOnlyThroughPort: a PRN, a PUSH, a fault. -/
theorem witness_step_answers : (∃ t, step (machineAt 0 [0x47, 7] (regs 0 0 9) 0) = .next t) ∧
    (∃ t, step (machineAt 0 [0x45, 7] (regs 0 0 9) 0) = .next t) ∧
    (∃ t, step (machineAt 256 [] (regs 0 0 9) 0) = .next t) := ⟨⟨_, rfl⟩, ⟨_, rfl⟩, ⟨_, rfl⟩⟩

/-- AccessesOfEachInstruction and PcAfterCompletion: a PUSH, a POP, an HLT at the top and a taken JMP that complete. -/
theorem witness_completing_steps :
    decode (window (machineAt 254 [0x45, 7] (regs 0 0 9) 0)) = .ok (.push 7, []) ∧
    shows (machineAt 254 [0x45, 7] (regs 0 0 9) 0) (fun t => t.run) = some .running ∧
    decode (window (machineAt 254 [0x46, 7] (regs 0 0 9) 0)) = .ok (.pop 7, []) ∧
    shows (machineAt 254 [0x46, 7] (regs 0 0 9) 0) (fun t => t.run) = some .running ∧
    decode (window (machineAt 255 [0x01] (regs 0 0 9) 0)) = .ok (.hlt, []) ∧
    shows (machineAt 255 [0x01] (regs 0 0 9) 0) (fun t => t.run) = some .halted ∧
    decode (window (machineAt 254 [0x54, 7] (regs 0 0 9) 0)) = .ok (.jmp 7, []) ∧
    shows (machineAt 254 [0x54, 7] (regs 0 0 9) 0) (fun t => t.pc.toNat) = some 9 :=
  ⟨rfl, by decide, rfl, by decide, rfl, by decide, rfl, by decide⟩

/-- A POP over another memory that holds the same bytes where it reads: its code and the byte at R7. -/
theorem witness_StepDependsOnlyOnBytesRead :
    stepAccesses (machineAt 0 [0x46, 0] (regs 0 0 0x20) 0) = [.read 0 0x46, .read 1 0, .read 0x20 0] ∧
    Memory.read [(0, 0x46), (0x30, 1)] 0 = 0x46 ∧ Memory.read [(0, 0x46), (0x30, 1)] 1 = 0 ∧
    Memory.read [(0, 0x46), (0x30, 1)] 0x20 = 0 ∧ (∃ t, step (machineAt 0 [0x46, 0] (regs 0 0 0x20) 0) = .next t) :=
  ⟨by decide, by decide, by decide, by decide, ⟨_, rfl⟩⟩

/-- 95_test_vectors.md P5: the pushed HLT is the next opcode. -/
theorem witness_PushedByteIsFetchedNext :
    runsOpcode (machineAt 6 [0x45, 0] (regs 1 0 9) 0) 0x45 ∧ byteAt (machineAt 6 [0x45, 0] (regs 1 0 9) 0) 7 = 0 ∧
    (machineAt 6 [0x45, 0] (regs 1 0 9) 0).x[7].toNat = opAddr (machineAt 6 [0x45, 0] (regs 1 0 9) 0) + 3 ∧
    shows (machineAt 6 [0x45, 0] (regs 1 0 9) 0) (fun t => byteAt t (opAddr t)) = some 0x01 := by decide

/-- R7 = 1 and R7 = F4, registers 0 and 6. -/
theorem witness_PushThenPopRestores :
    (6 : Byte).toNat < 7 ∧ (machineAt 0 [] (regs 0 0 1) 0).x[7] ≠ 0 ∧ State.reset.x[7].toNat ≤ 0xF4 := by decide

theorem witness_JmpToItselfHangs :
    runsOpcode (machineAt 254 [0x54, 7] (regs 0 0 254) 0) 0x54 ∧
    byteAt (machineAt 254 [0x54, 7] (regs 0 0 254) 0) 255 = 7 ∧
    (machineAt 254 [0x54, 7] (regs 0 0 254) 0).x[7].toNat = 254 := by decide

/-- RunEndsByHltOrFault: an HLT, a fatal error and an instruction that goes on. -/
theorem witness_RunEndsByHltOrFault :
    shows (machineAt 255 [0x01] (regs 0 0 0) 0) (fun t => t.run) = some .halted ∧
    firstCause (machineAt 0 [0x45, 0] (regs 0 0 0) 0) = some { kind := .stackOverflow, info := 0 } ∧
    firstCause (machineAt 0 [0x45, 0] (regs 0 0 1) 0) = none ∧ ¬ runsOpcode (machineAt 0 [0x45, 0] (regs 0 0 1) 0) 0x01 := by
  decide

/-- MemoryPortContract at 255, the last address, at 256, the first that raises, and at 511 and 512, where the recorded
address begins to be reduced. -/
theorem witness_MemoryPortContract :
    State.reset.memRead 255 = .ok 0 ∧
    ((State.reset.memWrite 255 7).toOption.bind fun t => (t.memRead 255).toOption) = some 7 ∧
    State.reset.memRead 256 = .error { kind := .outOfRange, info := 256 } ∧
    (State.reset.memWrite 256 7).toOption = none ∧
    (BitVec.ofNat 9 511).toNat = 511 ∧ (BitVec.ofNat 9 512).toNat ≠ 512 := by decide

/-- The reset state, which ResetMemoryAndImage and ResetMeetsInvariant speak of, boots with an
image of 256 bytes and not with one of 257. -/
theorem witness_ResetMeetsInvariant :
    (List.replicate 256 (1 : Byte)).length ≤ 256 ∧ (List.replicate 257 (1 : Byte)).length > 256 ∧
    (State.boot Config.initGpr 7 [1]).isSome := 
  ⟨by rw [List.length_replicate], by rw [List.length_replicate]; decide, by decide⟩

/-- StepKeepsInvariant and StatusOutputsFollowState: a running, a halted and a faulted state that meet the invariant,
each with pc at its bound. -/
theorem witness_StepKeepsInvariant :
    (machineAt 256 [] (regs 0 0 0) 0).Inv ∧ { machineAt 256 [] (regs 0 0 0) 0 with run := .halted }.Inv ∧
    { machineAt 256 [] (regs 0 0 0) 0 with
      run := .faulted, fault := some { kind := .outOfRange, fpc := 256, info := 256 } }.Inv ∧
    (∃ t, step (machineAt 256 [] (regs 0 0 0) 0) = .next t) :=
  ⟨by decide, by decide, by decide, ⟨_, rfl⟩⟩

end Sys2Proof.Tests
end

section
/-! SUPPORT. The statements of 10_state.md. What `exec` and `step` can do is said once, by `exec_cases` and `step_cases`:
an instruction completes (`Completes`) or raises its cause. Each frame, the invariant and the rules of the whole machine
follow from the fields of a completed instruction and of a raise. -/

namespace Sys2Proof

/-! ## The decoder and its bytes -/

/-- Every instruction has the shape of encoding that its format asks for (30_encoding.md R80 to R85). -/
theorem encoding_shape (i : Instr) : Laws.EncodingShape.Statement i := by
  cases i with
  | hlt => exact Laws.EncodingShape.hlt
  | ldi a b => exact Laws.EncodingShape.ldi a b
  | prn a => exact Laws.EncodingShape.prn a
  | push a => exact Laws.EncodingShape.push a
  | pop a => exact Laws.EncodingShape.pop a
  | jmp a => exact Laws.EncodingShape.jmp a
  | jeq a => exact Laws.EncodingShape.jeq a
  | jne a => exact Laws.EncodingShape.jne a
  | add a b => exact Laws.EncodingShape.add a b
  | mul a b => exact Laws.EncodingShape.mul a b
  | cmp a b => exact Laws.EncodingShape.cmp a b

/-- An encoding is the opcode and the operand bytes of its format. -/
theorem length_encode (i : Instr) : (encode i).length = i.format.operandCount + 1 := by
  cases i <;> rfl

/-- Decoding inverts encoding, whatever bytes follow. -/
theorem decode_encode_append (i : Instr) (rest : List Byte) : decode (encode i ++ rest) = .ok (i, rest) := by
  cases i <;> rfl

/-- What `takeOne` answers, it took from the front. -/
theorem takeOne_eq_ok {mk : Byte → Instr} {bytes rest : List Byte} {i : Instr}
    (h : takeOne mk bytes = .ok (i, rest)) : ∃ a, i = mk a ∧ bytes = a :: rest := by
  match bytes with
  | [] => simp [takeOne] at h
  | a :: _ => exact ⟨a, by simp_all [takeOne]⟩

/-- What `takeTwo` answers, it took from the front. -/
theorem takeTwo_eq_ok {mk : Byte → Byte → Instr} {bytes rest : List Byte} {i : Instr}
    (h : takeTwo mk bytes = .ok (i, rest)) : ∃ a b, i = mk a b ∧ bytes = a :: b :: rest := by
  match bytes with
  | [] | [_] => simp [takeTwo] at h
  | a :: b :: _ => exact ⟨a, b, by simp_all [takeTwo]⟩

/-- The opcodes of 30_encoding.md R87, listed. -/
theorem isOpcode_iff {op : Byte} : isOpcode op = true ↔ op ∈ validOpcodes := by
  simp [isOpcode]

/-- A byte outside the table is rejected by its bit 5, whatever follows (30_encoding.md R88). -/
theorem decode_of_not_isOpcode {op : Byte} (rest : List Byte) (h : isOpcode op = false) :
    decode (op :: rest) = .error (illegalOpcode op) := by
  simp_all [isOpcode, validOpcodes, decode]

/-- Whatever decodes is the encoding of the instruction decoded, with what follows it. -/
theorem eq_encode_append_of_decode {bytes rest : List Byte} {i : Instr} (h : decode bytes = .ok (i, rest)) :
    bytes = encode i ++ rest := by
  obtain _ | ⟨op, bytes⟩ := bytes
  · cases h
  have hop : op ∈ validOpcodes := by
    by_contra hn
    rw [decode_of_not_isOpcode bytes (by simpa [← isOpcode_iff] using hn)] at h
    cases h
  simp only [validOpcodes, List.mem_cons, List.not_mem_nil, or_false] at hop
  rcases hop with rfl | rfl | rfl | rfl | rfl | rfl | rfl | rfl | rfl | rfl | rfl
  · obtain ⟨rfl, rfl⟩ : Instr.hlt = i ∧ bytes = rest := by simpa [decode] using h
    rfl
  · obtain ⟨a, b, rfl, rfl⟩ := takeTwo_eq_ok h
    rfl
  · obtain ⟨a, rfl, rfl⟩ := takeOne_eq_ok h
    rfl
  · obtain ⟨a, rfl, rfl⟩ := takeOne_eq_ok h
    rfl
  · obtain ⟨a, rfl, rfl⟩ := takeOne_eq_ok h
    rfl
  · obtain ⟨a, rfl, rfl⟩ := takeOne_eq_ok h
    rfl
  · obtain ⟨a, rfl, rfl⟩ := takeOne_eq_ok h
    rfl
  · obtain ⟨a, rfl, rfl⟩ := takeOne_eq_ok h
    rfl
  · obtain ⟨a, b, rfl, rfl⟩ := takeTwo_eq_ok h
    rfl
  · obtain ⟨a, b, rfl, rfl⟩ := takeTwo_eq_ok h
    rfl
  · obtain ⟨a, b, rfl, rfl⟩ := takeTwo_eq_ok h
    rfl

/-- A valid opcode has at most two operand bytes (30_encoding.md R82). -/
theorem opcodeCount_le_two {op : Byte} (h : isOpcode op = true) : opcodeCount op ≤ 2 := by
  have : ∀ op ∈ validOpcodes, opcodeCount op ≤ 2 := by decide
  exact this op (isOpcode_iff.mp h)

/-- A valid opcode with as many bytes after it as its count field says is the encoding of an instruction. -/
theorem exists_encode_eq {op : Byte} {operands : List Byte} (h : isOpcode op = true)
    (hn : operands.length = opcodeCount op) : ∃ i, encode i = op :: operands := by
  have one (hc : operands.length = 1) : ∃ a, operands = [a] := List.length_eq_one_iff.mp hc
  have two (hc : operands.length = 2) : ∃ a b, operands = [a, b] := List.length_eq_two.mp hc
  have hop := isOpcode_iff.mp h
  simp only [validOpcodes, List.mem_cons, List.not_mem_nil, or_false] at hop
  rcases hop with rfl | rfl | rfl | rfl | rfl | rfl | rfl | rfl | rfl | rfl | rfl
  · exact ⟨.hlt, by simp [encode, List.length_eq_zero_iff.mp hn]⟩
  · obtain ⟨a, b, rfl⟩ := two hn
    exact ⟨.ldi a b, rfl⟩
  · obtain ⟨a, rfl⟩ := one hn
    exact ⟨.prn a, rfl⟩
  · obtain ⟨a, rfl⟩ := one hn
    exact ⟨.push a, rfl⟩
  · obtain ⟨a, rfl⟩ := one hn
    exact ⟨.pop a, rfl⟩
  · obtain ⟨a, rfl⟩ := one hn
    exact ⟨.jmp a, rfl⟩
  · obtain ⟨a, rfl⟩ := one hn
    exact ⟨.jeq a, rfl⟩
  · obtain ⟨a, rfl⟩ := one hn
    exact ⟨.jne a, rfl⟩
  · obtain ⟨a, b, rfl⟩ := two hn
    exact ⟨.add a b, rfl⟩
  · obtain ⟨a, b, rfl⟩ := two hn
    exact ⟨.mul a b, rfl⟩
  · obtain ⟨a, b, rfl⟩ := two hn
    exact ⟨.cmp a b, rfl⟩

end Sys2Proof

namespace Sys2Proof.Machine

open Sys2Proof.Claims

/-! ## Small laws of the state -/

/-- A byte stored inside the memory: what `State.memWrite` answers there. -/
def State.store (s : State) (addr : Nat) (v : Byte) : State := { s with mem := Memory.write s.mem addr v }

theorem memWrite_eq_store {s : State} {addr : Nat} (v : Byte) (h : addr < Config.memSize) :
    s.memWrite addr v = .ok (s.store addr v) := memWrite_inside v h

section
variable (s : State)

@[simp] theorem State.store_fl (addr : Nat) (v : Byte) : (s.store addr v).fl = s.fl := rfl
@[simp] theorem State.store_run (addr : Nat) (v : Byte) : (s.store addr v).run = s.run := rfl
@[simp] theorem State.store_fault (addr : Nat) (v : Byte) : (s.store addr v).fault = s.fault := rfl
@[simp] theorem State.store_mem (addr : Nat) (v : Byte) : (s.store addr v).mem = Memory.write s.mem addr v := rfl
@[simp] theorem State.store_out (addr : Nat) (v : Byte) : (s.store addr v).out = s.out := rfl

/-- Writing R7 leaves every other register as it was. -/
theorem State.reg_setSp_of_ne {i : RegIx} (h : i ≠ 7) (v : Byte) : (s.setSp v).reg i = s.reg i :=
  State.reg_setReg_of_ne s h v

/-- Nine bits hold every byte, so that zero extension keeps the number. -/
@[simp] theorem toNat_mod_512 (v : Byte) : v.toNat % 512 = v.toNat := by omega

/-- A branch moves the pc: to the register's value if taken, past the instruction if not. -/
theorem branch_eq_setPc (ra : RegIx) (taken : Bool) :
    branch s ra taken = s.setPc (if taken then zext9 (s.reg ra) else s.npc 1) := by
  cases taken <;> rfl

end

/-! ## What an instruction does: its fatal error, or its effect -/

/-- The register check of one operand before the rest of the checks (30_encoding.md R92). -/
def checkReg (a : Byte) (rest : Option Raise) : Option Raise :=
  if a.toNat < 8 then rest else some (Raise.invalidRegister a)

/-- The fatal error that an instruction raises at execution, if any: its first bad register operand, otherwise the
stack's check of PUSH and POP (60_exceptions.md R153). `exec_raises` and `exec_cases` tie it to `exec`. -/
def execCause (s : State) : Instr → Option Raise
  | .hlt => none
  | .ldi a _ => checkReg a none
  | .prn a => checkReg a none
  | .push a => checkReg a (if s.sp = 0 then some (Raise.stackOverflow s.sp) else none)
  | .pop a => checkReg a (if s.sp ≥ Config.stackTop then some (Raise.stackUnderflow s.sp) else none)
  | .jmp a => checkReg a none
  | .jeq a => checkReg a none
  | .jne a => checkReg a none
  | .add a b => checkReg a (checkReg b none)
  | .mul a b => checkReg a (checkReg b none)
  | .cmp a b => checkReg a (checkReg b none)

/-- The checks pass exactly if this one does and the rest do. -/
theorem checkReg_eq_none {a : Byte} {rest : Option Raise} :
    checkReg a rest = none ↔ a.toNat < 8 ∧ rest = none := by
  by_cases h : a.toNat < 8 <;> simp [checkReg, h]

/-- The checks raise exactly if this one does, or it passes and the rest raise. -/
theorem checkReg_eq_some {a : Byte} {rest : Option Raise} {r : Raise} :
    checkReg a rest = some r ↔ (¬ a.toNat < 8 ∧ r = Raise.invalidRegister a) ∨ (a.toNat < 8 ∧ rest = some r) := by
  by_cases h : a.toNat < 8 <;> simp [checkReg, h, eq_comm]

/-- The register that an operand byte of 0 to 7 names. -/
abbrev regIx (a : Byte) (h : a.toNat < 8) : RegIx := ⟨a.toNat, h⟩

/-- `Completes s i t`: from `s` the instruction `i` passes its checks and takes effect as a whole, giving `t`; the
pseudocode of each instruction (40_basic.md to 43_alu.md). `Completes.exec` and `exec_cases` tie it to `exec`. -/
inductive Completes (s : State) : Instr → State → Prop
  | hlt : Completes s .hlt (s.halt.advance 0)
  | ldi {a : Byte} (b : Byte) (ha : a.toNat < 8) : Completes s (.ldi a b) ((s.setReg (regIx a ha) b).advance 2)
  | prn {a : Byte} (ha : a.toNat < 8) : Completes s (.prn a) ((s.emit (s.reg (regIx a ha))).advance 1)
  | push {a : Byte} (ha : a.toNat < 8) (h0 : s.sp ≠ 0) : Completes s (.push a)
      (((s.setSp (s.sp - 1)).store (pushAddr s) ((s.setSp (s.sp - 1)).reg (regIx a ha))).advance 1)
  | pop {a : Byte} (ha : a.toNat < 8) (htop : ¬ s.sp ≥ Config.stackTop) : Completes s (.pop a)
      ((postincrement (s.setReg (regIx a ha) (Memory.read s.mem s.sp.toNat))).advance 1)
  | jmp {a : Byte} (ha : a.toNat < 8) : Completes s (.jmp a) (branch s (regIx a ha) true)
  | jeq {a : Byte} (ha : a.toNat < 8) : Completes s (.jeq a) (branch s (regIx a ha) (jeqTaken s.fl))
  | jne {a : Byte} (ha : a.toNat < 8) : Completes s (.jne a) (branch s (regIx a ha) (jneTaken s.fl))
  | add {a b : Byte} (ha : a.toNat < 8) (hb : b.toNat < 8) : Completes s (.add a b)
      ((s.setReg (regIx a ha) (aluAdd (s.reg (regIx a ha)) (s.reg (regIx b hb)))).advance 2)
  | mul {a b : Byte} (ha : a.toNat < 8) (hb : b.toNat < 8) : Completes s (.mul a b)
      ((s.setReg (regIx a ha) (aluMul (s.reg (regIx a ha)) (s.reg (regIx b hb)))).advance 2)
  | cmp {a b : Byte} (ha : a.toNat < 8) (hb : b.toNat < 8) : Completes s (.cmp a b)
      ((s.setFl (cmpFlags (s.reg (regIx a ha)) (s.reg (regIx b hb)))).advance 2)

/-- An instruction that completes is what `exec` runs. -/
theorem Completes.exec {s t : State} {i : Instr} (h : Completes s i t) : exec i s = .next t := by
  cases h with
  | hlt => rfl
  | ldi b ha => simp [Machine.exec, execLdi, ha]
  | prn ha => simp [Machine.exec, execPrn, ha]
  | push ha h0 =>
    simp only [Machine.exec, execPush, ha, regOperand_ok, ok_bind, predecrement, if_neg h0,
      memWrite_eq_store _ (pushAddr_lt s), pure_eq_ok, commit_ok]
  | pop ha htop =>
    have hlt : s.sp.toNat < Config.memSize := s.sp.isLt
    simp only [Machine.exec, execPop, ha, regOperand_ok, ok_bind, popAddr, if_neg htop, memRead_inside hlt,
      pure_eq_ok, commit_ok]
  | jmp ha => simp [Machine.exec, execJmp, ha]
  | jeq ha => simp [Machine.exec, execJeq, ha]
  | jne ha => simp [Machine.exec, execJne, ha]
  | add ha hb => simp [Machine.exec, execAdd, ha, hb]
  | mul ha hb => simp [Machine.exec, execMul, ha, hb]
  | cmp ha hb => simp [Machine.exec, execCmp, ha, hb]

/-- An instruction without a cause completes. -/
theorem exists_completes {s : State} {i : Instr} (h : execCause s i = none) : ∃ t, Completes s i t := by
  cases i with
  | hlt => exact ⟨_, .hlt⟩
  | ldi a b => exact ⟨_, .ldi b (checkReg_eq_none.mp h).1⟩
  | prn a => exact ⟨_, .prn (checkReg_eq_none.mp h).1⟩
  | push a =>
    obtain ⟨ha, h0⟩ := checkReg_eq_none.mp h
    exact ⟨_, .push ha (by simpa using h0)⟩
  | pop a =>
    obtain ⟨ha, htop⟩ := checkReg_eq_none.mp h
    exact ⟨_, .pop ha (by simpa using htop)⟩
  | jmp a => exact ⟨_, .jmp (checkReg_eq_none.mp h).1⟩
  | jeq a => exact ⟨_, .jeq (checkReg_eq_none.mp h).1⟩
  | jne a => exact ⟨_, .jne (checkReg_eq_none.mp h).1⟩
  | add a b =>
    obtain ⟨ha, hb⟩ := checkReg_eq_none.mp h
    exact ⟨_, .add ha (checkReg_eq_none.mp hb).1⟩
  | mul a b =>
    obtain ⟨ha, hb⟩ := checkReg_eq_none.mp h
    exact ⟨_, .mul ha (checkReg_eq_none.mp hb).1⟩
  | cmp a b =>
    obtain ⟨ha, hb⟩ := checkReg_eq_none.mp h
    exact ⟨_, .cmp ha (checkReg_eq_none.mp hb).1⟩

/-- An instruction with a cause raises it, and does nothing else. -/
theorem exec_raises {s : State} {i : Instr} {r : Raise} (h : execCause s i = some r) :
    exec i s = .next (s.raise r) := by
  cases i with
  | hlt => cases h
  | ldi a b | prn a | jmp a | jeq a | jne a =>
    obtain ⟨ha, rfl⟩ | ⟨-, hrest⟩ := checkReg_eq_some.mp h
    · simp [exec, execLdi, execPrn, execJmp, execJeq, execJne, ha]
    · cases hrest
  | push a =>
    obtain ⟨ha, rfl⟩ | ⟨ha, hsp⟩ := checkReg_eq_some.mp h
    · simp [exec, execPush, ha]
    · obtain ⟨h0, rfl⟩ : s.sp = 0 ∧ Raise.stackOverflow s.sp = r := by simpa using hsp
      simp only [exec, execPush, ha, regOperand_ok, ok_bind, predecrement, if_pos h0, error_bind, commit_error]
  | pop a =>
    obtain ⟨ha, rfl⟩ | ⟨ha, hsp⟩ := checkReg_eq_some.mp h
    · simp [exec, execPop, ha]
    · obtain ⟨htop, rfl⟩ : s.sp ≥ Config.stackTop ∧ Raise.stackUnderflow s.sp = r := by simpa using hsp
      simp only [exec, execPop, ha, regOperand_ok, ok_bind, popAddr, if_pos htop, error_bind, commit_error]
  | add a b | mul a b | cmp a b =>
    obtain ⟨ha, rfl⟩ | ⟨ha, hrest⟩ := checkReg_eq_some.mp h
    · simp [exec, execAdd, execMul, execCmp, ha]
    · obtain ⟨hb, rfl⟩ | ⟨-, hnone⟩ := checkReg_eq_some.mp hrest
      · simp [exec, execAdd, execMul, execCmp, ha, hb]
      · cases hnone

/-- Everything `exec` can do: the instruction completes, or it raises its cause and does nothing else. -/
theorem exec_cases {s t : State} {i : Instr} (h : exec i s = .next t) :
    (execCause s i = none ∧ Completes s i t) ∨ ∃ r, execCause s i = some r ∧ t = s.raise r := by
  cases hc : execCause s i with
  | none =>
    obtain ⟨u, hu⟩ := exists_completes hc
    obtain rfl : u = t := by simpa [hu.exec] using h
    exact .inl ⟨rfl, hu⟩
  | some r => exact .inr ⟨r, rfl, by simpa [exec_raises hc] using h.symm⟩

/-! ## Fetch -/

/-- The bytes at pc are the encoding of `i`, and lie inside the memory. `Fetched.fetch_eq` and `fetched_of_fetch` tie
it to `fetch`. -/
def Fetched (s : State) (i : Instr) : Prop :=
  s.pc.toNat + i.format.operandCount < 256 ∧
    encode i = Memory.read s.mem s.pc.toNat ::
      (List.range i.format.operandCount).map (fun k => Memory.read s.mem (s.pc.toNat + 1 + k))

/-- A pc above the memory: the opcode fetch raises OutOfRange of the pc (30_encoding.md R91). -/
theorem fetch_above_top {s : State} (h : ¬ s.pc.toNat < 256) : fetch s = .error (Raise.outOfRange s.pc.toNat) := by
  simp [fetch, memRead_outside h]

/-- An illegal opcode raises before any operand is fetched (30_encoding.md R88, R89). -/
theorem fetch_illegal {s : State} (h : s.pc.toNat < 256) (hop : isOpcode (Memory.read s.mem s.pc.toNat) = false) :
    fetch s = .error (raiseOfDecode s.pc.toNat (illegalOpcode (Memory.read s.mem s.pc.toNat))) := by
  simp [fetch, memRead_inside h, operandBytes, hop, decode_of_not_isOpcode]

/-- Operand bytes that would lie above the memory: the fetch raises OutOfRange of 256 (30_encoding.md R91). -/
theorem fetch_operands_above_top {s : State} (h : s.pc.toNat < 256)
    (hop : isOpcode (Memory.read s.mem s.pc.toNat) = true)
    (htop : 256 ≤ s.pc.toNat + opcodeCount (Memory.read s.mem s.pc.toNat)) :
    fetch s = .error (Raise.outOfRange 256) := by
  have hr : s.readBytes (s.pc.toNat + 1) (opcodeCount (Memory.read s.mem s.pc.toNat)) = .error (Raise.outOfRange 256) :=
    readBytes_outside h (by simp only [Config.memSize]; omega)
  simp [fetch, memRead_inside h, operandBytes, hop, hr]

/-- The fetch of an instruction that lies at pc answers it. -/
theorem Fetched.fetch_eq {s : State} {i : Instr} (h : Fetched s i) : fetch s = .ok i := by
  obtain ⟨hlt, henc⟩ := h
  obtain ⟨op, operands, hi, hop, hcount, hlen, -⟩ := encoding_shape i
  rw [hi, List.cons.injEq] at henc
  obtain ⟨rfl, hoperands⟩ := henc
  have hp : s.pc.toNat < 256 := by omega
  have hr : s.readBytes (s.pc.toNat + 1) (operandBytes (Memory.read s.mem s.pc.toNat)) = .ok operands := by
    rw [operandBytes, if_pos hop, hcount, hlen, hoperands]
    exact readBytes_inside (by simp only [Config.memSize]; omega)
  have hd : decode (Memory.read s.mem s.pc.toNat :: operands) = .ok (i, []) := by
    simpa [hi] using decode_encode_append i []
  simp [fetch, memRead_inside hp, hr, hd]

/-- One instruction lies at pc. -/
theorem Fetched.unique {s : State} {i j : Instr} (hi : Fetched s i) (hj : Fetched s j) : i = j := by
  simpa [hi.fetch_eq] using hj.fetch_eq

/-- A valid opcode whose operand bytes lie inside the memory: an instruction lies at pc. -/
theorem exists_fetched {s : State} (hop : isOpcode (Memory.read s.mem s.pc.toNat) = true)
    (hin : s.pc.toNat + opcodeCount (Memory.read s.mem s.pc.toNat) < 256) : ∃ i, Fetched s i := by
  obtain ⟨i, hi⟩ := exists_encode_eq (operands := (List.range (opcodeCount (Memory.read s.mem s.pc.toNat))).map
    (fun k => Memory.read s.mem (s.pc.toNat + 1 + k))) hop (by simp)
  have hn : i.format.operandCount = opcodeCount (Memory.read s.mem s.pc.toNat) := by
    simpa [hi] using (length_encode i).symm
  exact ⟨i, by rwa [hn], by rw [hn, hi]⟩

/-- An instruction that a fetch answers lies at pc. -/
theorem fetched_of_fetch {s : State} {i : Instr} (h : fetch s = .ok i) : Fetched s i := by
  have hp : s.pc.toNat < 256 := by
    by_contra hp
    simp [fetch_above_top hp] at h
  have hop : isOpcode (Memory.read s.mem s.pc.toNat) = true := by
    by_contra hop
    simp [fetch_illegal hp (by simpa using hop)] at h
  have hin : s.pc.toNat + opcodeCount (Memory.read s.mem s.pc.toNat) < 256 := by
    by_contra hin
    simp [fetch_operands_above_top hp hop (by omega)] at h
  obtain ⟨j, hj⟩ := exists_fetched hop hin
  obtain rfl : j = i := by simpa [hj.fetch_eq] using h
  exact hj

/-! ## The first cause, and the step -/

/-- A pc above the memory is the first cause. -/
theorem firstCause_above_top {s : State} (h : ¬ s.pc.toNat < 256) :
    firstCause s = some (Raise.outOfRange s.pc.toNat) := by
  have hp : s.pc.toNat > 255 := by omega
  simp [firstCause, hp, Raise.outOfRange]

/-- An illegal opcode inside the memory is the first cause, as its decode raises it. -/
theorem firstCause_illegal {s : State} (h : s.pc.toNat < 256)
    (hop : isOpcode (Memory.read s.mem s.pc.toNat) = false) :
    firstCause s = some (raiseOfDecode s.pc.toNat (illegalOpcode (Memory.read s.mem s.pc.toNat))) := by
  have hp : ¬ s.pc.toNat > 255 := by omega
  have hmem : Memory.read s.mem s.pc.toNat ∉ validOpcodes := by simp [← isOpcode_iff, hop]
  cases halu : (Memory.read s.mem s.pc.toNat).getLsbD 5 <;>
    simp only [firstCause, hp, hmem, halu, illegalOpcode, opcodeAlu, raiseOfDecode, if_true, if_false,
      not_false_eq_true, and_self, and_false, Bool.false_eq_true, reduceCtorEq]

/-- Operand bytes that would lie above the memory are the first cause of a valid opcode. -/
theorem firstCause_operands_above_top {s : State} (h : s.pc.toNat < 256)
    (hop : isOpcode (Memory.read s.mem s.pc.toNat) = true)
    (htop : 256 ≤ s.pc.toNat + opcodeCount (Memory.read s.mem s.pc.toNat)) :
    firstCause s = some (Raise.outOfRange 256) := by
  have hp : ¬ s.pc.toNat > 255 := by omega
  have hmem := isOpcode_iff.mp hop
  have hcount := opcodeCount_le_two hop
  have hpos : opcodeCount (Memory.read s.mem s.pc.toNat) ≥ 1 := by omega
  by_cases h1 : s.pc.toNat + 1 > 255
  · simp only [firstCause, hp, hmem, hpos, h1, not_true, false_and, and_self, if_false, if_true]
    rfl
  · have h2 : opcodeCount (Memory.read s.mem s.pc.toNat) = 2 ∧ s.pc.toNat + 2 > 255 := by omega
    simp only [firstCause, hp, hmem, h1, h2, not_true, false_and, and_false, and_self, if_false, if_true]
    rfl

/-- An instruction of one operand byte at pc, byte by byte. -/
theorem Fetched.bytes_one {s : State} {i : Instr} {op a : Byte} (h : Fetched s i) (hi : encode i = [op, a]) :
    s.pc.toNat + 1 < 256 ∧ Memory.read s.mem s.pc.toNat = op ∧ Memory.read s.mem (s.pc.toNat + 1) = a := by
  obtain ⟨hlt, henc⟩ := h
  have hn : i.format.operandCount = 1 := by simpa [hi] using (length_encode i).symm
  rw [hn] at hlt
  simp only [hi, hn, List.range_one, List.map_cons, List.map_nil, List.cons.injEq, and_true, Nat.add_zero] at henc
  exact ⟨hlt, henc.1.symm, henc.2.symm⟩

/-- An instruction of two operand bytes at pc, byte by byte. -/
theorem Fetched.bytes_two {s : State} {i : Instr} {op a b : Byte} (h : Fetched s i) (hi : encode i = [op, a, b]) :
    s.pc.toNat + 2 < 256 ∧ Memory.read s.mem s.pc.toNat = op ∧ Memory.read s.mem (s.pc.toNat + 1) = a ∧
      Memory.read s.mem (s.pc.toNat + 2) = b := by
  obtain ⟨hlt, henc⟩ := h
  have hn : i.format.operandCount = 2 := by simpa [hi] using (length_encode i).symm
  rw [hn] at hlt
  simp only [hi, hn, List.range_succ, List.range_zero, List.nil_append, List.cons_append, List.map_cons, List.map_nil,
    List.cons.injEq, and_true, Nat.add_zero, Nat.add_assoc] at henc
  obtain ⟨hop, ha, hb⟩ := henc
  exact ⟨hlt, hop.symm, ha.symm, hb.symm⟩

/-- The register check as the first cause spells it. -/
theorem checkReg_eq_ite (a : Byte) (rest : Option Raise) :
    checkReg a rest = if 8 ≤ a.toNat then some { kind := .invalidRegister, info := zext9 a } else rest := by
  by_cases ha : a.toNat < 8
  · simp [checkReg, ha, Nat.not_le.mpr ha]
  · simp [checkReg, ha, Nat.not_lt.mp ha, Raise.invalidRegister]

/-- An instruction that lies at pc: the first cause is the one it raises at execution. -/
theorem Fetched.firstCause_eq {s : State} {i : Instr} (h : Fetched s i) : firstCause s = execCause s i := by
  have hp : ¬ s.pc.toNat > 255 := by have := h.1; omega
  cases i with
  | hlt =>
    have hop : Memory.read s.mem s.pc.toNat = 0x01 := (List.cons.inj h.2).1.symm
    simp [firstCause, hp, hop, validOpcodes, opcodeCount, execCause]
  | ldi a b | add a b | mul a b | cmp a b =>
    obtain ⟨hlt, hop, ha, hb⟩ := h.bytes_two rfl
    have h1 : ¬ 255 ≤ s.pc.toNat := by omega
    have h2 : ¬ 255 < s.pc.toNat + 2 := by omega
    simp [firstCause, opAddr, hp, hop, ha, hb, h1, h2, validOpcodes, opcodeCount, execCause, checkReg_eq_ite]
  | prn a | jmp a | jeq a | jne a =>
    obtain ⟨hlt, hop, ha⟩ := h.bytes_one rfl
    have h1 : ¬ 255 ≤ s.pc.toNat := by omega
    simp [firstCause, opAddr, hp, hop, ha, h1, validOpcodes, opcodeCount, execCause, checkReg_eq_ite]
  | push a =>
    obtain ⟨hlt, hop, ha⟩ := h.bytes_one rfl
    have h1 : ¬ 255 ≤ s.pc.toNat := by omega
    by_cases h0 : s.sp = 0#8 <;>
      simp [firstCause, opAddr, hp, hop, ha, h1, h0, validOpcodes, opcodeCount, execCause, checkReg_eq_ite,
        Raise.stackOverflow]
  | pop a =>
    obtain ⟨hlt, hop, ha⟩ := h.bytes_one rfl
    have h1 : ¬ 255 ≤ s.pc.toNat := by omega
    simp [firstCause, opAddr, hp, hop, ha, h1, validOpcodes, opcodeCount, execCause, checkReg_eq_ite,
      Raise.stackUnderflow, BitVec.le_def]

/-- What a fetch raises is the first cause. -/
theorem firstCause_of_fetch_error {s : State} {r : Raise} (h : fetch s = .error r) : firstCause s = some r := by
  by_cases hp : s.pc.toNat < 256
  · cases hop : isOpcode (Memory.read s.mem s.pc.toNat) with
    | false =>
      rw [firstCause_illegal hp hop]
      simpa [fetch_illegal hp hop] using h
    | true =>
      have htop : 256 ≤ s.pc.toNat + opcodeCount (Memory.read s.mem s.pc.toNat) := by
        by_contra hin
        obtain ⟨i, hi⟩ := exists_fetched hop (by omega)
        simp [hi.fetch_eq] at h
      rw [firstCause_operands_above_top hp hop htop]
      simpa [fetch_operands_above_top hp hop htop] using h
  · rw [firstCause_above_top hp]
    simpa [fetch_above_top hp] using h

/-- Only a running machine steps (10_state.md R31). -/
theorem running_of_step {s t : State} (h : step s = .next t) : s.run = .running := by
  cases hr : s.run with
  | running => rfl
  | halted | faulted => simp [step, hr] at h

theorem step_of_fetch_ok {s : State} {i : Instr} (hr : s.run = .running) (h : fetch s = .ok i) :
    step s = exec i s := by
  simp [step, hr, h]

theorem step_of_fetch_error {s : State} {r : Raise} (hr : s.run = .running) (h : fetch s = .error r) :
    step s = .next (s.raise r) := by
  simp [step, hr, h]

/-- Everything a step can do: without a cause the instruction at pc completes, otherwise the first cause is raised
and nothing else happens (30_encoding.md R89, 60_exceptions.md R153). -/
theorem step_cases {s t : State} (h : step s = .next t) :
    (firstCause s = none ∧ ∃ i, Fetched s i ∧ Completes s i t) ∨ ∃ r, firstCause s = some r ∧ t = s.raise r := by
  have hr := running_of_step h
  cases hf : fetch s with
  | error r =>
    rw [step_of_fetch_error hr hf] at h
    exact .inr ⟨r, firstCause_of_fetch_error hf, by simpa using h.symm⟩
  | ok i =>
    have hi := fetched_of_fetch hf
    rw [step_of_fetch_ok hr hf] at h
    rw [hi.firstCause_eq]
    obtain ⟨hnone, hc⟩ | hraise := exec_cases h
    · exact .inl ⟨hnone, i, hi, hc⟩
    · exact .inr hraise

/-- A step without a cause completes the instruction at pc. -/
theorem completes_of_step {s t : State} (h : step s = .next t) (hc : firstCause s = none) :
    ∃ i, Fetched s i ∧ Completes s i t := by
  obtain ⟨-, hi⟩ | ⟨r, hr, -⟩ := step_cases h
  · exact hi
  · simp [hc] at hr

/-- A step with a cause only raises it. -/
theorem eq_raise_of_step {s t : State} {r : Raise} (h : step s = .next t) (hc : firstCause s = some r) :
    t = s.raise r := by
  obtain ⟨hnone, -⟩ | ⟨r', hr', ht⟩ := step_cases h
  · simp [hc] at hnone
  · obtain rfl : r = r' := by simpa [hc] using hr'
    exact ht

/-! ## Each field after an instruction that completes -/

/-- The run state: Halted after HLT, as before after any other. -/
theorem Completes.run_eq {s t : State} {i : Instr} (h : Completes s i t) :
    t.run = if i = .hlt then .halted else s.run := by
  cases h <;> simp [branch_eq_setPc, postincrement]

theorem Completes.fault_eq {s t : State} {i : Instr} (h : Completes s i t) : t.fault = s.fault := by
  cases h <;> simp [branch_eq_setPc, postincrement]

/-- Memory: one byte stored by PUSH at its address, nothing by any other. -/
theorem Completes.mem_eq {s t : State} {i : Instr} (h : Completes s i t) :
    t.mem = s.mem ∨ ∃ a v, i = .push a ∧ t.mem = Memory.write s.mem (pushAddr s) v := by
  cases h with
  | push ha h0 => exact .inr ⟨_, _, rfl, rfl⟩
  | _ => exact .inl (by simp [branch_eq_setPc, postincrement])

/-- The flags: CMP's comparison, as before after any other. -/
theorem Completes.fl_eq {s t : State} {i : Instr} (h : Completes s i t) :
    t.fl = s.fl ∨ ∃ a b ra rb, i = .cmp a b ∧ t.fl = cmpFlags (s.reg ra) (s.reg rb) := by
  cases h with
  | cmp ha hb => exact .inr ⟨_, _, _, _, rfl, rfl⟩
  | _ => exact .inl (by simp [branch_eq_setPc, postincrement])

/-- The output grows by what the instruction emits. -/
theorem Completes.out_eq {s t : State} {i : Instr} (h : Completes s i t) : t.out = s.out ++ execEmits i s := by
  cases h with
  | prn ha => simp [execEmits, ha]
  | _ => simp [execEmits, branch_eq_setPc, postincrement]

/-- The pc: past the instruction, or at a branch's register (10_state.md R27). -/
theorem Completes.pc_eq {s t : State} {i : Instr} (h : Completes s i t) :
    t.pc = s.npc i.format.operandCount ∨
      ∃ (a : Byte) (ha : a.toNat < 8), (i = .jmp a ∨ i = .jeq a ∨ i = .jne a) ∧ t.pc = zext9 (s.reg (regIx a ha)) := by
  cases h with
  | jmp ha => exact .inr ⟨_, ha, by simp, rfl⟩
  | jeq ha =>
    cases htaken : jeqTaken s.fl
    · exact .inl rfl
    · exact .inr ⟨_, ha, by simp, rfl⟩
  | jne ha =>
    cases htaken : jneTaken s.fl
    · exact .inl rfl
    · exact .inr ⟨_, ha, by simp, rfl⟩
  | _ => exact .inl rfl

/-! ## The invariant -/

/-- The three kinds of fatal error that an instruction raises at execution (60_exceptions.md R151). -/
theorem execCause_eq_some {s : State} {i : Instr} {r : Raise} (h : execCause s i = some r) :
    (∃ a : Byte, ¬ a.toNat < 8 ∧ r = Raise.invalidRegister a) ∨ (s.sp = 0 ∧ r = Raise.stackOverflow s.sp) ∨
      (s.sp ≥ Config.stackTop ∧ r = Raise.stackUnderflow s.sp) := by
  cases i with
  | hlt => cases h
  | ldi a b | prn a | jmp a | jeq a | jne a =>
    obtain ⟨ha, rfl⟩ | ⟨-, hrest⟩ := checkReg_eq_some.mp h
    · exact .inl ⟨a, ha, rfl⟩
    · cases hrest
  | push a =>
    obtain ⟨ha, rfl⟩ | ⟨-, hsp⟩ := checkReg_eq_some.mp h
    · exact .inl ⟨a, ha, rfl⟩
    · exact .inr (.inl (by simpa [eq_comm] using hsp))
  | pop a =>
    obtain ⟨ha, rfl⟩ | ⟨-, hsp⟩ := checkReg_eq_some.mp h
    · exact .inl ⟨a, ha, rfl⟩
    · exact .inr (.inr (by simpa [eq_comm] using hsp))
  | add a b | mul a b | cmp a b =>
    obtain ⟨ha, rfl⟩ | ⟨-, hrest⟩ := checkReg_eq_some.mp h
    · exact .inl ⟨a, ha, rfl⟩
    · obtain ⟨hb, rfl⟩ | ⟨-, hnone⟩ := checkReg_eq_some.mp hrest
      · exact .inl ⟨b, hb, rfl⟩
      · cases hnone

/-- What an instruction raises at execution, its kind may record. -/
theorem faultInfoLegal_of_execCause {s : State} {i : Instr} {r : Raise} (h : execCause s i = some r) :
    faultInfoLegal r.kind r.info = true := by
  obtain ⟨a, ha, rfl⟩ | ⟨h0, rfl⟩ | ⟨htop, rfl⟩ := execCause_eq_some h
  · simpa [Raise.invalidRegister, faultInfoLegal] using ⟨Nat.not_lt.mp ha, a.isLt⟩
  · simp [Raise.stackOverflow, faultInfoLegal, h0]
  · simpa [Raise.stackUnderflow, faultInfoLegal] using ⟨BitVec.le_def.mp htop, s.sp.isLt⟩

/-- What an illegal opcode raises, its kind may record. -/
theorem faultInfoLegal_of_illegalOpcode {op : Byte} (p : Nat) (h : isOpcode op = false) :
    faultInfoLegal (raiseOfDecode p (illegalOpcode op)).kind (raiseOfDecode p (illegalOpcode op)).info = true := by
  have hlt : op.toNat < 256 := op.isLt
  cases halu : opcodeAlu op <;> simp [illegalOpcode, raiseOfDecode, faultInfoLegal, halu, h, hlt]

/-- The first cause is of a kind that may record its value, while the pc is in range. -/
theorem faultInfoLegal_of_firstCause {s : State} {r : Raise} (hpc : pcInRange s) (h : firstCause s = some r) :
    faultInfoLegal r.kind r.info = true := by
  by_cases hp : s.pc.toNat < 256
  · cases hop : isOpcode (Memory.read s.mem s.pc.toNat) with
    | false =>
      obtain rfl := Option.some.inj ((firstCause_illegal hp hop).symm.trans h)
      exact faultInfoLegal_of_illegalOpcode _ hop
    | true =>
      by_cases hin : s.pc.toNat + opcodeCount (Memory.read s.mem s.pc.toNat) < 256
      · obtain ⟨i, hi⟩ := exists_fetched hop hin
        exact faultInfoLegal_of_execCause (hi.firstCause_eq.symm.trans h)
      · obtain rfl := Option.some.inj ((firstCause_operands_above_top hp hop (by omega)).symm.trans h)
        rfl
  · obtain rfl := Option.some.inj ((firstCause_above_top hp).symm.trans h)
    have hpc256 : s.pc.toNat = 256 := by have : s.pc.toNat ≤ 256 := hpc; omega
    rw [hpc256]
    rfl

/-- A fatal error keeps the invariant. -/
theorem inv_raise {s : State} {r : Raise} (hs : s.Inv) (hr : faultInfoLegal r.kind r.info = true) :
    (s.raise r).Inv := by
  obtain ⟨hpc, hmem, -⟩ := hs
  exact ⟨hpc, hmem, by simp [faultRecordAgrees, hr]⟩

/-- A running state of the invariant has no fault record. -/
theorem fault_eq_none_of_running {s : State} (hs : faultRecordAgrees s = true) (hr : s.run = .running) :
    s.fault = none := by
  cases hf : s.fault with
  | none => rfl
  | some r => simp [faultRecordAgrees, hr, hf] at hs

/-- The pc after an instruction at pc that completes: p + 1 + n with no wrap, or a branch's register. -/
theorem Completes.pc_toNat {s t : State} {i : Instr} (hi : Fetched s i) (h : Completes s i t) :
    t.pc.toNat = s.pc.toNat + 1 + i.format.operandCount ∨
      ∃ (a : Byte) (ha : a.toNat < 8),
        (i = .jmp a ∨ i = .jeq a ∨ i = .jne a) ∧ t.pc.toNat = (s.reg (regIx a ha)).toNat := by
  obtain hpc | ⟨a, ha, hbranch, hpc⟩ := h.pc_eq
  · exact .inl (by rw [hpc, State.npc_toNat hi.1])
  · exact .inr ⟨a, ha, hbranch, by simp [hpc]⟩

/-- An instruction at pc that completes keeps the invariant. -/
theorem Completes.inv {s t : State} {i : Instr} (hs : s.Inv) (hr : s.run = .running) (hi : Fetched s i)
    (h : Completes s i t) : t.Inv := by
  obtain ⟨-, hmem, hfault⟩ := hs
  refine ⟨?_, ?_, ?_⟩
  · have hlt := hi.1
    obtain hpc | ⟨a, ha, -, hpc⟩ := h.pc_toNat hi
    · show t.pc.toNat ≤ 256
      omega
    · have := (s.reg (regIx a ha)).isLt
      show t.pc.toNat ≤ 256
      omega
  · obtain hm | ⟨-, v, -, hm⟩ := h.mem_eq
    · rwa [hm]
    · rw [hm]
      exact Memory.write_wf v (pushAddr_lt s) hmem
  · have hf : t.fault = none := h.fault_eq.trans (fault_eq_none_of_running hfault hr)
    by_cases hh : i = .hlt <;> simp [faultRecordAgrees, h.run_eq, hf, hh, hr]

/-! ## Frames of `exec` -/

/-- The registers that an instruction may write (10_state.md R25). `Completes.reg_eq` ties it to `exec`. -/
def WritesReg : Instr → RegIx → Prop
  | .ldi a _, j | .add a _, j | .mul a _, j => j.val = a.toNat
  | .push _, j => j = 7
  | .pop a, j => j = 7 ∨ j.val = a.toNat
  | _, _ => False

/-- Writing the register that an operand names leaves a register of another number as it was. -/
theorem State.reg_setReg_regIx_of_ne (s : State) {a : Byte} (ha : a.toNat < 8) {j : RegIx} (hj : j.val ≠ a.toNat)
    (v : Byte) : (s.setReg (regIx a ha) v).reg j = s.reg j :=
  State.reg_setReg_of_ne s (fun h => hj (congrArg Fin.val h)) v

/-- A register that the instruction does not write is as before. -/
theorem Completes.reg_eq {s t : State} {i : Instr} (h : Completes s i t) {j : RegIx} (hj : ¬ WritesReg i j) :
    t.reg j = s.reg j := by
  cases h with
  | ldi b ha => exact s.reg_setReg_regIx_of_ne ha hj b
  | push ha h0 => exact s.reg_setSp_of_ne hj _
  | pop ha htop =>
    obtain ⟨h7, hja⟩ := not_or.mp hj
    exact (State.reg_setSp_of_ne _ h7 _).trans (s.reg_setReg_regIx_of_ne ha hja _)
  | add ha hb => exact s.reg_setReg_regIx_of_ne ha hj _
  | mul ha hb => exact s.reg_setReg_regIx_of_ne ha hj _
  | _ => simp [branch_eq_setPc]

section
variable {s t : State} {i : Instr}

theorem exec_reg_eq (h : exec i s = .next t) {j : RegIx} (hj : ¬ WritesReg i j) : t.reg j = s.reg j := by
  obtain ⟨-, hc⟩ | ⟨r, -, rfl⟩ := exec_cases h
  · exact hc.reg_eq hj
  · rfl

theorem exec_fl_eq (h : exec i s = .next t) (hi : ∀ a b, i ≠ .cmp a b) : t.fl = s.fl := by
  obtain ⟨-, hc⟩ | ⟨r, -, rfl⟩ := exec_cases h
  · exact hc.fl_eq.resolve_right fun ⟨a, b, _, _, he, _⟩ => hi a b he
  · rfl

theorem exec_read_eq (h : exec i s = .next t) {addr : Nat} (ha : addr ≠ pushAddr s ∨ ∀ a, i ≠ .push a) :
    byteAt t addr = byteAt s addr := by
  obtain ⟨-, hc⟩ | ⟨r, -, rfl⟩ := exec_cases h
  · obtain hm | ⟨a, v, hi, hm⟩ := hc.mem_eq
    · rw [byteAt, hm]
    · rw [byteAt, hm, Memory.read_write_of_ne _ _ (ha.resolve_right fun hn => hn a hi)]
  · rfl

/-- An instruction that raises emits nothing. -/
theorem execEmits_of_execCause {r : Raise} (h : execCause s i = some r) : execEmits i s = [] := by
  cases i with
  | prn a =>
    obtain ⟨ha, -⟩ | ⟨-, hrest⟩ := checkReg_eq_some.mp h
    · simp [execEmits, ha]
    · cases hrest
  | _ => rfl

theorem exec_out_eq (h : exec i s = .next t) : t.out = s.out ++ execEmits i s := by
  obtain ⟨-, hc⟩ | ⟨r, hr, rfl⟩ := exec_cases h
  · exact hc.out_eq
  · simp [execEmits_of_execCause hr]

theorem exec_completesOrRaises (h : exec i s = .next t) (hi : i ≠ .hlt) : completesOrRaises s t := by
  obtain ⟨-, hc⟩ | ⟨r, -, rfl⟩ := exec_cases h
  · exact .inl ⟨by rw [hc.run_eq, if_neg hi], hc.fault_eq⟩
  · exact .inr ⟨r, rfl⟩

/-- An instruction that is no PUSH leaves memory as it was. -/
theorem exec_sameMemory (h : exec i s = .next t) (hi : ∀ a, i ≠ .push a) : sameMemory s t :=
  fun _ => exec_read_eq h (.inr hi)

/-- An instruction that emits nothing leaves the output as it was. -/
theorem exec_out_eq_self (h : exec i s = .next t) (hi : execEmits i s = []) : t.out = s.out := by
  simpa [hi] using exec_out_eq h

end

/-! ## Flags -/

/-- CMP's flags say which way the comparison went. -/
theorem cmpFlags_iff (u v : Byte) :
    (cmpFlags u v = 0b001 ↔ u = v) ∧ (cmpFlags u v = 0b010 ↔ u.toNat > v.toNat) ∧
      (cmpFlags u v = 0b100 ↔ u.toNat < v.toNat) := by
  obtain ⟨h, hf⟩ | ⟨h, hf⟩ | ⟨h, hf⟩ := cmpFlags_cases u v <;> rw [hf]
  · subst h
    simp
  · have hne : u ≠ v := by bv_omega
    have hgt : v.toNat < u.toNat := BitVec.lt_def.mp h
    simp [hne, hgt, hgt.le]
  · have hne : u ≠ v := by bv_omega
    have hlt : u.toNat < v.toNat := BitVec.lt_def.mp h
    simp [hne, hlt, hlt.le]

/-- A running state with an instruction at pc runs its opcode. -/
theorem Fetched.runs {s : State} {i : Instr} {op : Byte} {operands : List Byte} (h : Fetched s i)
    (hr : s.run = .running) (hi : encode i = op :: operands) : runsOpcode s op := by
  obtain ⟨hlt, henc⟩ := h
  refine ⟨hr, ?_, (List.cons.inj (hi.symm.trans henc)).1.symm⟩
  show s.pc.toNat ≤ 255
  omega

/-- A step leaves the flags as they were, or it runs a CMP and leaves its comparison (10_state.md R30). -/
theorem step_fl {s t : State} (h : step s = .next t) :
    t.fl = s.fl ∨ (runsOpcode s 0xA7 ∧ ∃ u v, t.fl = cmpFlags u v) := by
  obtain ⟨-, i, hi, hc⟩ | ⟨r, -, rfl⟩ := step_cases h
  · obtain hfl | ⟨a, b, ra, rb, rfl, hfl⟩ := hc.fl_eq
    · exact .inl hfl
    · exact .inr ⟨hi.runs (running_of_step h) rfl, _, _, hfl⟩
  · exact .inl rfl

/-- Two states that agree up to the flags end an instruction in states that agree up to the flags and the pc; and in
the pc too, unless the instruction is JEQ or JNE and bit 0 differs. -/
theorem Completes.eq_up_to_fl {s t t' : State} {i : Instr} {f : FlagBits} (h : Completes s i t)
    (h' : Completes (s.setFl f) i t') :
    t' = { t with fl := t'.fl, pc := t'.pc } ∧
      (t'.pc = t.pc ∨ (f[0] ≠ s.fl[0] ∧ ∃ a, i = .jeq a ∨ i = .jne a)) := by
  have htaken : flagE f = flagE s.fl ∨ f[0] ≠ s.fl[0] := em (f[0] = s.fl[0])
  cases h with
  | jeq ha =>
    cases h'
    simp only [branch_eq_setPc]
    refine ⟨rfl, htaken.imp (fun he => ?_) fun hne => ⟨hne, _, .inl rfl⟩⟩
    exact congrArg (fun e : Bool => if e then zext9 (s.reg (regIx _ ha)) else s.npc 1) he
  | jne ha =>
    cases h'
    simp only [branch_eq_setPc]
    refine ⟨rfl, htaken.imp (fun he => ?_) fun hne => ⟨hne, _, .inr rfl⟩⟩
    exact congrArg (fun e : Bool => if !e then zext9 (s.reg (regIx _ ha)) else s.npc 1) he
  | _ => cases h'; exact ⟨rfl, .inl rfl⟩

/-- `Completes.eq_up_to_fl` for a whole step: the fetch and the first cause do not see the flags. -/
theorem step_eq_up_to_fl {s t t' : State} {f : FlagBits} (h : step s = .next t)
    (h' : step (s.setFl f) = .next t') :
    t' = { t with fl := t'.fl, pc := t'.pc } ∧
      (t'.pc = t.pc ∨ (f[0] ≠ s.fl[0] ∧ (byteAt s (opAddr s) = 0x55 ∨ byteAt s (opAddr s) = 0x56))) := by
  have hcause : firstCause (s.setFl f) = firstCause s := rfl
  cases hc : firstCause s with
  | none =>
    obtain ⟨i, hi, hcomp⟩ := completes_of_step h hc
    obtain ⟨j, hj, hcomp'⟩ := completes_of_step h' (hcause.trans hc)
    obtain rfl : i = j := Fetched.unique hi hj
    obtain ⟨hrest, hpc⟩ := hcomp.eq_up_to_fl hcomp'
    refine ⟨hrest, hpc.imp_right fun ⟨hne, a, hbranch⟩ => ⟨hne, ?_⟩⟩
    exact hbranch.imp (fun he => ((he ▸ hi).bytes_one rfl).2.1) (fun he => ((he ▸ hi).bytes_one rfl).2.1)
  | some r =>
    rw [eq_raise_of_step h hc, eq_raise_of_step h' (hcause.trans hc)]
    exact ⟨rfl, .inl rfl⟩

/-! ## Memory after a load -/

/-- Consecutive bytes inside the memory read as they were written. -/
theorem Memory.read_writeList (m : List Host.Cell) {a : Nat} {vs : List Byte} (h : a + vs.length ≤ Config.memSize)
    (k : Nat) : Memory.read (Memory.writeList m a vs) (a + k) = vs.getD k (Memory.read m (a + k)) := by
  induction vs generalizing m a k with
  | nil => simp [Memory.writeList]
  | cons v vs ih =>
    rw [List.length_cons] at h
    have ha : a < Config.memSize := by omega
    rw [Memory.writeList, if_pos ha]
    cases k with
    | zero => simp [Memory.read_writeList_of_lt _ vs (Nat.lt_succ_self a)]
    | succ k =>
      rw [show a + (k + 1) = a + 1 + k by omega, ih _ (by omega), Memory.read_write_of_ne _ _ (by omega),
        List.getD_cons_succ]

/-! ## The end of a run, and what a step emits -/

/-- An HLT lies at pc exactly if the opcode byte there is 01: it has no operand byte. -/
theorem fetched_hlt_iff {s : State} (hr : s.run = .running) : Fetched s .hlt ↔ runsOpcode s 0x01 := by
  refine ⟨fun h => h.runs hr rfl, fun ⟨_, hp, hop⟩ => ⟨Nat.lt_succ_of_le hp, ?_⟩⟩
  simp [encode, Instr.format, Format.operandCount, hop]

/-- HLT has no cause. -/
theorem firstCause_of_runsOpcode_hlt {s : State} (h : runsOpcode s 0x01) : firstCause s = none :=
  ((fetched_hlt_iff h.1).mpr h).firstCause_eq

/-- A running state shows no observation (70_reset_and_hazards.md R185). -/
theorem observation_of_running {s : State} (h : s.run = .running) : s.observation = none := by
  simp [State.observation, State.outcome, h]

theorem observation_of_halted {s : State} (h : s.run = .halted) : s.observation = some (s.out, .halted) := by
  simp [State.observation, State.outcome, h]

theorem observation_raise (s : State) (r : Raise) : (s.raise r).observation = some (s.out, .faulted r.kind) := rfl

/-- A step emits what the instruction at pc emits. -/
theorem stepEmits_of_fetched {s : State} {i : Instr} (hr : s.run = .running) (hi : Fetched s i) :
    stepEmits s = execEmits i s := by
  simp [stepEmits, hr, hi.fetch_eq]

/-- A step that raises emits nothing. -/
theorem stepEmits_of_firstCause {s : State} {r : Raise} (hr : s.run = .running) (h : firstCause s = some r) :
    stepEmits s = [] := by
  cases hf : fetch s with
  | error r' => simp [stepEmits, hr, hf]
  | ok i =>
    have hi := fetched_of_fetch hf
    rw [stepEmits_of_fetched hr hi]
    exact execEmits_of_execCause (hi.firstCause_eq ▸ h)

/-- An instruction that completes emits one byte if it is a PRN, and nothing otherwise. -/
theorem Completes.emits {s t : State} {i : Instr} (h : Completes s i t) :
    (∃ a v, i = .prn a ∧ execEmits i s = [v]) ∨ ((∀ a, i ≠ .prn a) ∧ execEmits i s = []) := by
  cases h with
  | @prn a ha => exact .inl ⟨a, _, rfl, by rw [execEmits, regOperand_ok ha]⟩
  | _ => exact .inr ⟨by simp, rfl⟩

/-- The instruction at pc is a PRN exactly if its opcode byte is 47. -/
theorem Fetched.exists_prn_iff {s : State} {i : Instr} (h : Fetched s i) (hr : s.run = .running) :
    (∃ a, i = .prn a) ↔ runsOpcode s 0x47 := by
  refine ⟨fun ⟨a, ha⟩ => (ha ▸ h).runs hr rfl, fun ⟨_, _, hop⟩ => ?_⟩
  have hhead : (encode i).head? = some 0x47 := by rw [h.2, ← hop, List.head?_cons]
  cases i with
  | prn a => exact ⟨a, rfl⟩
  | _ => simp [encode] at hhead

/-! ## The window of a step -/

/-- If the bytes from pc up decode, the instruction decoded lies at pc. -/
theorem fetched_of_decode_window {s : State} {i : Instr} {rest : List Byte}
    (h : decode (window s) = .ok (i, rest)) : Fetched s i := by
  have hw := eq_encode_append_of_decode h
  have hlen := congrArg List.length hw
  simp only [window, List.length_map, List.length_range, List.length_append, length_encode] at hlen
  have hlt : s.pc.toNat + i.format.operandCount < 256 := by
    simp only [opAddr] at hlen
    omega
  have hmin : min (i.format.operandCount + 1) (min 3 (256 - opAddr s)) = i.format.operandCount + 1 := by omega
  refine ⟨hlt, ?_⟩
  calc encode i = (window s).take (i.format.operandCount + 1) := by
        rw [hw, ← length_encode, List.take_left']
        rfl
    _ = (List.range (i.format.operandCount + 1)).map (fun k => byteAt s (opAddr s + k)) := by
        rw [window, ← List.map_take, List.take_range, hmin]
    _ = _ := by
        simp [List.range_succ_eq_map, Function.comp_def, Nat.add_assoc, Nat.add_comm 1]

/-! ## Reset -/

theorem resetWith_inv (g : Vector Byte 7) (f : FlagBits) : (State.resetWith g f).Inv :=
  ⟨Nat.zero_le _, Memory.reset_wf, rfl⟩

/-- A booted state is the reset state with the image written to memory. -/
theorem boot_eq_some_iff {g : Vector Byte 7} {f : FlagBits} {image : List Byte} {s : State} :
    State.boot g f image = some s ↔ image.length ≤ 256 ∧ s = (State.resetWith g f).loadImage image := by
  simp [State.boot, eq_comm]

/-- The codes of R151 are 1 to 6. -/
theorem faultCode_range (k : FaultKind) : 1 ≤ (faultCode k).toNat ∧ (faultCode k).toNat ≤ 6 := by
  cases k <;> decide

/-- The code 11 of `st_state` stands for no run state. -/
theorem runCode_ne_three (r : RunState) : runCode r ≠ 0b11 := by
  cases r <;> decide

/-- The status outputs while no fault is shown (10_state.md R35). -/
theorem statusOutputs_of_no_fault {s : State} (h : shownFault s = none) :
    statusOutputs s = { stState := runCode s.run, stFaultCode := 0, stFaultPc := 0, stFaultInfo := 0 } := by
  simp [statusOutputs, h]

/-- The status outputs while a fault is shown (10_state.md R35). -/
theorem statusOutputs_of_fault {s : State} {r : FaultRecord} (h : shownFault s = some r) :
    statusOutputs s =
      { stState := runCode s.run, stFaultCode := faultCode r.kind, stFaultPc := r.fpc, stFaultInfo := r.info } := by
  simp [statusOutputs, h]

end Sys2Proof.Machine

namespace Sys2Proof.Proofs

open Sys2Proof.Machine Sys2Proof.Claims

/-! ## The invariant -/

/-- Settles O51: a step completes an instruction or raises the first cause, and either keeps the invariant. -/
theorem stepKeepsInvariant : Obligations.StepKeepsInvariant := by
  intro s t hs h
  obtain ⟨-, i, hi, hc⟩ | ⟨r, hr, rfl⟩ := step_cases h
  · exact hc.inv hs (running_of_step h) hi
  · exact inv_raise hs (faultInfoLegal_of_firstCause hs.1 hr)

/-! ## Frames -/

/-- Settles O27, from the frame of `exec`: each of the three writes register a alone. -/
theorem registerResultFrame : Obligations.RegisterResultFrame := by
  rintro s t a b (h | h | h) <;>
    exact ⟨fun j hj => exec_reg_eq h hj, exec_fl_eq h (by simp), exec_sameMemory h (by simp), exec_out_eq_self h rfl,
      exec_completesOrRaises h (by simp)⟩

/-- Settles O29, from the frame of `exec`: PRN writes no register, and the output grows by what it emits. -/
theorem prnFrame : Obligations.PrnFrame := by
  intro s t a h
  exact ⟨fun j => exec_reg_eq h id, exec_fl_eq h (by simp), exec_sameMemory h (by simp), ⟨_, (exec_out_eq h).symm⟩,
    exec_completesOrRaises h (by simp)⟩

/-- Settles O30, from the frame of `exec`: a branch writes no register and emits nothing. -/
theorem branchFrame : Obligations.BranchFrame := by
  rintro s t a (h | h | h) <;>
    exact ⟨fun j => exec_reg_eq h id, exec_fl_eq h (by simp), exec_sameMemory h (by simp), exec_out_eq_self h rfl,
      exec_completesOrRaises h (by simp)⟩

/-- Settles O31, from the frame of `exec`: CMP writes no register. -/
theorem cmpFrame : Obligations.CmpFrame := by
  intro s t a b h
  exact ⟨fun j => exec_reg_eq h id, exec_sameMemory h (by simp), exec_out_eq_self h rfl,
    exec_completesOrRaises h (by simp)⟩

/-- Settles O32, from the frame of `exec`: PUSH writes R7 alone, and stores at its own address alone. -/
theorem pushFrame : Obligations.PushFrame := by
  intro s t a h
  exact ⟨fun j hj => exec_reg_eq h hj, exec_fl_eq h (by simp), exec_out_eq_self h rfl,
    exec_completesOrRaises h (by simp), fun addr ha => exec_read_eq h (.inl ha)⟩

/-- Settles O33, from the frame of `exec`: POP writes register a and R7 alone. -/
theorem popFrame : Obligations.PopFrame := by
  intro s t a h
  exact ⟨fun j h7 ha => exec_reg_eq h (not_or.mpr ⟨h7, ha⟩), exec_fl_eq h (by simp), exec_sameMemory h (by simp),
    exec_out_eq_self h rfl, exec_completesOrRaises h (by simp)⟩

/-! ## Flags -/

/-- Settles O34: `step_fl` for the writes, CMP's effect for the replacement, and `step_eq_up_to_fl` for the reads. -/
theorem onlyCmpWritesFlags : Obligations.OnlyCmpWritesFlags := by
  refine ⟨fun s t h hne => ((step_fl h).resolve_left hne).1, ?_, ?_, fun s f => rfl⟩
  · intro s t t' f a b hwf h h'
    have ha : a.toNat < 8 := hwf a (by simp [Instr.regOperands])
    have hb : b.toNat < 8 := hwf b (by simp [Instr.regOperands])
    obtain rfl := Host.Outcome.next.inj ((Completes.cmp ha hb).exec.symm.trans h)
    obtain rfl := Host.Outcome.next.inj ((Completes.cmp (s := s.setFl f) ha hb).exec.symm.trans h')
    rfl
  · intro s t t' f h h'
    obtain ⟨hrest, hpc⟩ := step_eq_up_to_fl h h'
    have same (he : t'.pc = t.pc) : t' = { t with fl := t'.fl } := hrest.trans (by rw [he])
    refine ⟨fun hf => same (hpc.resolve_right fun hne => hne.1 hf), fun h55 h56 => same (hpc.resolve_right ?_), hrest⟩
    exact fun hne => hne.2.elim h55 h56

/-- Settles O35: CMP's comparison, and `step_fl`. -/
theorem flagsHoldOneOfThree : Obligations.FlagsHoldOneOfThree := by
  constructor
  · intro s t a b ha hb h
    obtain rfl := Host.Outcome.next.inj ((Completes.cmp ha hb).exec.symm.trans h)
    exact cmpFlags_iff _ _
  · intro s t h
    refine (step_fl h).imp_right fun ⟨hop, u, v, hfl⟩ => ⟨hop, ?_⟩
    rw [hfl]
    obtain ⟨-, hf⟩ | ⟨-, hf⟩ | ⟨-, hf⟩ := cmpFlags_cases u v <;> simp [hf]

/-! ## Output, pc and the end of a run -/

/-- Settles O37: a step completes an instruction, which emits a byte exactly if it is a PRN, or raises and emits
nothing. -/
theorem outputIsWhatPrnEmits : Obligations.OutputIsWhatPrnEmits := by
  intro s t h
  have hr := running_of_step h
  obtain ⟨-, i, hi, hc⟩ | ⟨r, hcause, rfl⟩ := step_cases h
  · rw [← hi.exists_prn_iff hr, stepEmits_of_fetched hr hi, hc.run_eq]
    obtain ⟨a, v, rfl, hv⟩ | ⟨hne, hv⟩ := hc.emits
    · simp [hc.out_eq, hv, hr]
    · simp [hc.out_eq, hv, hne]
  · simp [stepEmits_of_firstCause hr hcause]

/-- Settles O44: the instruction decoded lies at pc, so the sum stays in range. -/
theorem pcAfterCompletion : Obligations.PcAfterCompletion := by
  intro s t i rest hr hd h hf
  have hi := fetched_of_decode_window hd
  rw [step_of_fetch_ok hr hi.fetch_eq] at h
  obtain ⟨-, hc⟩ | ⟨r, -, rfl⟩ := exec_cases h
  · exact hc.pc_toNat hi
  · exact absurd rfl hf

/-- Settles O45: a step completes the instruction at pc, which halts exactly if it is HLT, or raises the first cause,
which HLT has none of. -/
theorem runEndsByHltOrFault : Obligations.RunEndsByHltOrFault := by
  intro s t hr h
  cases hcause : firstCause s with
  | none =>
    obtain ⟨i, hi, hc⟩ := completes_of_step h hcause
    have hhlt : runsOpcode s 0x01 ↔ i = .hlt :=
      (fetched_hlt_iff hr).symm.trans ⟨hi.unique, fun he => he ▸ hi⟩
    rw [hhlt]
    by_cases he : i = .hlt
    · subst he
      have ht : t.run = .halted := hc.run_eq
      have hout : t.out = s.out := by simpa [execEmits] using hc.out_eq
      simp [ht, observation_of_halted ht, hout]
    · have ht : t.run = .running := by rw [hc.run_eq, if_neg he, hr]
      simp [ht, he, observation_of_running ht]
  | some r =>
    obtain rfl := eq_raise_of_step h hcause
    have hno : ¬ runsOpcode s 0x01 := fun hop => by simp [firstCause_of_runsOpcode_hlt hop] at hcause
    refine ⟨⟨fun hhalted => by simp at hhalted, fun hop => absurd hop hno⟩, fun hop => absurd hop hno,
      fun r' hr' => ?_, fun hnone => by simp at hnone⟩
    obtain rfl := Option.some.inj hr'
    exact observation_raise s r

/-! ## Reset -/

/-- Settles O49: the image reads back from the empty memory. -/
theorem resetMemoryAndImage : Obligations.ResetMemoryAndImage := by
  intro g f
  refine ⟨fun addr => rfl, fun image hlen => ⟨_, boot_eq_some_iff.mpr ⟨hlen, rfl⟩, rfl, fun addr => ?_⟩⟩
  have := Memory.read_writeList [] (a := 0) (vs := image) (by simpa using hlen) addr
  rwa [Nat.zero_add] at this

/-- Settles O52: the run state and, in Faulted, the record of the invariant. -/
theorem statusOutputsFollowState : Obligations.StatusOutputsFollowState := by
  refine ⟨fun s => ⟨runCode_ne_three s.run, ?_⟩, fun s hs => ⟨fun h => ?_, fun h => ?_, fun h => ?_⟩⟩
  · cases hf : shownFault s with
    | none => simp [statusOutputs_of_no_fault hf]
    | some r =>
      rw [statusOutputs_of_fault hf]
      intro h7
      have := (faultCode_range r.kind).2
      simp [show faultCode r.kind = 7 from h7] at this
  · rw [statusOutputs_of_no_fault (by simp [shownFault, h]), h, runCode]
  · rw [statusOutputs_of_no_fault (by simp [shownFault, h]), h, runCode]
  · have hagree := hs.2.2
    cases hf : s.fault with
    | none => simp [faultRecordAgrees, h, hf] at hagree
    | some r =>
      have hpc : r.fpc = s.pc := by
        simp only [faultRecordAgrees, h, hf, Bool.and_eq_true, beq_iff_eq] at hagree
        exact hagree.1
      refine ⟨r, rfl, ?_, faultCode_range r.kind⟩
      rw [statusOutputs_of_fault (r := r) (by simp [shownFault, h, hf]), h, hpc, runCode]

/-- Settles O6: `step` and the two listings answer by the run state first. -/
theorem noStepWhenTerminal : Obligations.NoStepWhenTerminal := by
  refine ⟨fun s h => by simp [step, h], fun s h => by simp [step, h], fun s h => ?_⟩
  cases hr : s.run with
  | running => exact absurd hr h
  | halted | faulted => simp [stepAccesses, stepEmits, hr]

/-- Settles O47: R7 is the byte after the seven open ones. -/
theorem resetGivenRegisters : Obligations.ResetGivenRegisters := by
  have given (g : Vector Byte 7) (f : FlagBits) : (State.resetWith g f).x[7] = 0xF4 ∧
      (State.resetWith g f).pc = 0 ∧ (State.resetWith g f).run = .running :=
    ⟨Vector.getElem_push_eq .., rfl, rfl⟩
  exact ⟨given, given _ _⟩

/-- Settles O48: the open parameters stand before R7. -/
theorem resetTakesOpenParameters : Obligations.ResetTakesOpenParameters := by
  intro g f
  exact ⟨fun k hk => Vector.getElem_push_lt hk, rfl, rfl, rfl, rfl, rfl⟩

/-- Settles O50: writing the image keeps the canonical form of the reset memory. -/
theorem resetMeetsInvariant : Obligations.ResetMeetsInvariant := by
  refine ⟨resetWith_inv _ _, fun g f image => ⟨fun hlen => if_neg (Nat.not_le.mpr hlen), fun s hs => ?_⟩⟩
  obtain ⟨-, rfl⟩ := boot_eq_some_iff.mp hs
  obtain ⟨hpc, hmem, hfault⟩ := resetWith_inv g f
  exact ⟨hpc, Memory.writeList_wf 0 image hmem, hfault⟩

/-- Settles O53: bits 2 to 0 of the byte are the flags, and zero extension clears the others. -/
theorem snapshotShowsState : Obligations.SnapshotShowsState := by
  intro s
  refine ⟨rfl, rfl, rfl, fun k hk => ?_, fun k hk h3 => ?_⟩
  · simp [snapshot, flByte, BitVec.getElem_setWidth, BitVec.getLsbD_eq_getElem hk]
  · simp [snapshot, flByte, BitVec.getElem_setWidth, h3]

end Sys2Proof.Proofs
end

section
/-! SUPPORT. The statements of 20_memory.md. What crosses the memory port is said once: a fetch reads each byte of the
instruction at pc, in order, from inside the memory; an instruction adds PUSH's write or POP's read, and nothing if it
raises. Memory after a step, and a step over another memory, follow from the two cases of `exec_cases` and
`step_cases`. -/

namespace Sys2Proof.Machine

open Sys2Proof.Claims

/-! ## The accesses of a fetch -/

theorem readAccesses_succ (s : State) {addr : Nat} (n : Nat) (h : addr < Config.memSize) :
    readAccesses s addr (n + 1) = .read addr (Memory.read s.mem addr) :: readAccesses s (addr + 1) n := if_pos h

theorem readAccesses_outside (s : State) {addr : Nat} (n : Nat) (h : ¬ addr < Config.memSize) :
    readAccesses s addr n = [] := by
  cases n with
  | zero => rfl
  | succ n => exact if_neg h

theorem fetchAccesses_inside {s : State} (h : s.pc.toNat < Config.memSize) :
    fetchAccesses s = .read s.pc.toNat (Memory.read s.mem s.pc.toNat) ::
      readAccesses s (s.pc.toNat + 1) (operandBytes (Memory.read s.mem s.pc.toNat)) := if_pos h

theorem fetchAccesses_outside {s : State} (h : ¬ s.pc.toNat < Config.memSize) : fetchAccesses s = [] := if_neg h

/-- Reads of consecutive bytes inside the memory: all of them, in order. -/
theorem readAccesses_inside {s : State} {addr n : Nat} (h : addr + n ≤ Config.memSize) :
    readAccesses s addr n = (List.range n).map (fun k => .read (addr + k) (Memory.read s.mem (addr + k))) := by
  induction n generalizing addr with
  | zero => rfl
  | succ n ih =>
    rw [readAccesses_succ s n (by omega), ih (by omega)]
    simp [List.range_succ_eq_map, Function.comp_def, Nat.add_comm, Nat.add_left_comm]

/-- The operand bytes that a fetch reads are those of the instruction's format. -/
theorem Fetched.operandBytes_eq {s : State} {i : Instr} (h : Fetched s i) :
    operandBytes (Memory.read s.mem s.pc.toNat) = i.format.operandCount := by
  obtain ⟨op, operands, hi, hop, hcount, hlen, -⟩ := encoding_shape i
  rw [← (List.cons.inj (hi.symm.trans h.2)).1, operandBytes, if_pos hop, hcount, hlen]

/-- The fetch of the instruction at pc reads its bytes in order (20_memory.md R64). -/
theorem Fetched.fetchAccesses_eq {s : State} {i : Instr} (h : Fetched s i) :
    fetchAccesses s =
      (List.range (encode i).length).map (fun k => .read (opAddr s + k) (byteAt s (opAddr s + k))) := by
  have hlt := h.1
  have hp : s.pc.toNat < Config.memSize := by simp only [Config.memSize]; omega
  rw [fetchAccesses_inside hp, h.operandBytes_eq,
    readAccesses_inside (by simp only [Config.memSize]; omega), length_encode]
  simp [List.range_succ_eq_map, Function.comp_def, Nat.add_assoc, Nat.add_comm 1]

theorem mem_readAccesses {s : State} {addr n : Nat} {x : Access} (h : x ∈ readAccesses s addr n) :
    ∃ b < Config.memSize, x = .read b (Memory.read s.mem b) := by
  induction n generalizing addr with
  | zero => cases h
  | succ n ih =>
    by_cases ha : addr < Config.memSize
    · rw [readAccesses_succ s n ha] at h
      obtain rfl | h := List.mem_cons.mp h
      · exact ⟨addr, ha, rfl⟩
      · exact ih h
    · simp [readAccesses_outside s _ ha] at h

/-- A fetch only reads, and only inside the memory (20_memory.md R63). -/
theorem mem_fetchAccesses {s : State} {x : Access} (h : x ∈ fetchAccesses s) :
    ∃ b < Config.memSize, x = .read b (Memory.read s.mem b) := by
  by_cases hp : s.pc.toNat < Config.memSize
  · rw [fetchAccesses_inside hp] at h
    obtain rfl | h := List.mem_cons.mp h
    · exact ⟨_, hp, rfl⟩
    · exact mem_readAccesses h
  · simp [fetchAccesses_outside hp] at h

/-! ## The accesses of an instruction -/

/-- PUSH without a cause writes one byte. -/
theorem execAccesses_push {s : State} {a : Byte} (ha : a.toNat < 8) (h0 : s.sp ≠ 0) :
    execAccesses (.push a) s = [.write (pushAddr s) ((s.setSp (s.sp - 1)).reg (regIx a ha))] := by
  simp only [execAccesses, pushAccesses, regOperand_ok ha, predecrement, if_neg h0]

/-- POP without a cause reads one byte. -/
theorem execAccesses_pop {s : State} {a : Byte} (ha : a.toNat < 8) (htop : ¬ s.sp ≥ Config.stackTop) :
    execAccesses (.pop a) s = [.read s.sp.toNat (byteAt s s.sp.toNat)] := by
  simp only [execAccesses, popAccesses, regOperand_ok ha, popAddr, if_neg htop]

/-- An instruction that raises accesses nothing beyond its fetch. -/
theorem execAccesses_of_execCause {s : State} {i : Instr} {r : Raise} (h : execCause s i = some r) :
    execAccesses i s = [] := by
  cases i with
  | push a =>
    obtain ⟨ha, -⟩ | ⟨ha, hsp⟩ := checkReg_eq_some.mp h
    · simp only [execAccesses, pushAccesses, regOperand_error ha]
    · obtain ⟨h0, -⟩ : s.sp = 0 ∧ Raise.stackOverflow s.sp = r := by simpa using hsp
      simp only [execAccesses, pushAccesses, regOperand_ok ha, predecrement, if_pos h0]
  | pop a =>
    obtain ⟨ha, -⟩ | ⟨ha, hsp⟩ := checkReg_eq_some.mp h
    · simp only [execAccesses, popAccesses, regOperand_error ha]
    · obtain ⟨htop, -⟩ : s.sp ≥ Config.stackTop ∧ Raise.stackUnderflow s.sp = r := by simpa using hsp
      simp only [execAccesses, popAccesses, regOperand_ok ha, popAddr, if_pos htop]
  | _ => rfl

/-- What an instruction that completes accesses beyond its fetch (20_memory.md R64). -/
theorem Completes.execAccesses_cases {s t : State} {i : Instr} (h : Completes s i t) :
    (∃ a v, i = .push a ∧ execAccesses i s = [.write (pushAddr s) v] ∧
        t.mem = Memory.write s.mem (pushAddr s) v) ∨
      (t.mem = s.mem ∧ (execAccesses i s = [] ∨ execAccesses i s = [.read s.sp.toNat (byteAt s s.sp.toNat)])) := by
  cases h with
  | push ha h0 => exact .inl ⟨_, _, rfl, execAccesses_push ha h0, rfl⟩
  | pop ha htop => exact .inr ⟨rfl, .inr (execAccesses_pop ha htop)⟩
  | _ => exact .inr ⟨by simp [branch_eq_setPc], .inl rfl⟩

/-! ## The accesses of a step -/

theorem stepAccesses_of_fetched {s : State} {i : Instr} (hr : s.run = .running) (hi : Fetched s i) :
    stepAccesses s = fetchAccesses s ++ execAccesses i s := by
  simp [stepAccesses, hr, hi.fetch_eq]

/-- A step that raises only fetches. -/
theorem stepAccesses_of_firstCause {s : State} {r : Raise} (hr : s.run = .running) (h : firstCause s = some r) :
    stepAccesses s = fetchAccesses s := by
  cases hf : fetch s with
  | error r' => simp [stepAccesses, hr, hf]
  | ok i =>
    have hi := fetched_of_fetch hf
    rw [stepAccesses_of_fetched hr hi, execAccesses_of_execCause (hi.firstCause_eq ▸ h), List.append_nil]

/-! ## Replay -/

theorem replay_append (l l' : List Access) (m : List Host.Cell) : replay (l ++ l') m = replay l' (replay l m) := by
  induction l generalizing m with
  | nil => rfl
  | cons x l ih => cases x <;> exact ih _

/-- Accesses that are all reads leave memory as it was. -/
theorem replay_of_reads {l : List Access} (h : ∀ x ∈ l, isWrite x = false) (m : List Host.Cell) :
    replay l m = m := by
  induction l with
  | nil => rfl
  | cons x l ih =>
    cases x with
    | read addr v => exact ih fun y hy => h y (List.mem_cons_of_mem _ hy)
    | write addr v => cases h _ List.mem_cons_self

theorem isWrite_of_mem_fetchAccesses {s : State} {x : Access} (h : x ∈ fetchAccesses s) : isWrite x = false := by
  obtain ⟨b, -, rfl⟩ := mem_fetchAccesses h
  rfl

theorem addr_le_of_mem_fetchAccesses {s : State} {x : Access} (h : x ∈ fetchAccesses s) : x.addr ≤ 255 := by
  obtain ⟨b, hb, rfl⟩ := mem_fetchAccesses h
  exact Nat.le_of_lt_succ hb

/-- A fetch leaves memory as it was. -/
theorem replay_fetchAccesses_append (s : State) (l : List Access) (m : List Host.Cell) :
    replay (fetchAccesses s ++ l) m = replay l m := by
  rw [replay_append, replay_of_reads fun _ => isWrite_of_mem_fetchAccesses]

theorem filter_isWrite_fetchAccesses_append (s : State) (l : List Access) :
    (fetchAccesses s ++ l).filter isWrite = l.filter isWrite := by
  rw [List.filter_append, List.filter_eq_nil_iff.mpr (by simpa using fun _ => isWrite_of_mem_fetchAccesses),
    List.nil_append]

/-! ## A step over another memory -/

/-- The state with another memory. -/
def State.withMem (s : State) (m : List Host.Cell) : State := { s with mem := m }

/-- Every byte that the listed reads returned stands in `m` too. -/
def Holds (m : List Host.Cell) (l : List Access) : Prop := ∀ addr v, .read addr v ∈ l → Memory.read m addr = v

theorem holds_cons_read {m : List Host.Cell} {addr : Nat} {v : Byte} {l : List Access} :
    Holds m (.read addr v :: l) ↔ Memory.read m addr = v ∧ Holds m l := by
  simp [Holds, or_imp, forall_and]

theorem holds_append {m : List Host.Cell} {l l' : List Access} : Holds m (l ++ l') ↔ Holds m l ∧ Holds m l' := by
  simp only [Holds, List.mem_append, or_imp, forall_and]

section
variable {s t : State} {m : List Host.Cell}

theorem memRead_withMem {addr : Nat} (h : Memory.read m addr = Memory.read s.mem addr) :
    (s.withMem m).memRead addr = s.memRead addr := by
  simp only [State.memRead, State.withMem, h]

/-- Consecutive reads see the same bytes, and stop at the same place. -/
theorem reads_withMem {addr n : Nat} (h : Holds m (readAccesses s addr n)) :
    (s.withMem m).readBytes addr n = s.readBytes addr n ∧
      readAccesses (s.withMem m) addr n = readAccesses s addr n := by
  induction n generalizing addr with
  | zero => exact ⟨by simp, rfl⟩
  | succ n ih =>
    by_cases ha : addr < Config.memSize
    · rw [readAccesses_succ s n ha, holds_cons_read] at h
      obtain ⟨hv, hrest⟩ := h
      obtain ⟨hbytes, haccesses⟩ := ih hrest
      rw [readBytes_succ, readBytes_succ, memRead_withMem hv, hbytes, readAccesses_succ _ n ha,
        readAccesses_succ _ n ha, haccesses]
      exact ⟨rfl, by rw [← hv]; rfl⟩
    · rw [readAccesses_outside _ _ ha, readAccesses_outside _ _ ha, readBytes_succ, readBytes_succ,
        memRead_outside ha, memRead_outside ha]
      exact ⟨rfl, rfl⟩

/-- A fetch depends on memory only through the bytes it reads. -/
theorem fetch_withMem (h : Holds m (fetchAccesses s)) :
    fetch (s.withMem m) = fetch s ∧ fetchAccesses (s.withMem m) = fetchAccesses s := by
  by_cases hp : s.pc.toNat < Config.memSize
  · rw [fetchAccesses_inside hp, holds_cons_read] at h
    obtain ⟨hop, hrest⟩ := h
    obtain ⟨hbytes, haccesses⟩ := reads_withMem hrest
    have hop' : Memory.read (s.withMem m).mem (s.withMem m).pc.toNat = Memory.read s.mem s.pc.toNat := hop
    have hpc : (s.withMem m).pc = s.pc := rfl
    constructor
    · simp only [fetch, hpc, memRead_withMem hop, memRead_inside hp, ok_bind, hbytes]
    · rw [fetchAccesses_inside hp, fetchAccesses_inside (s := s.withMem m) hp, hop', hpc, haccesses]
  · exact ⟨(fetch_above_top (s := s.withMem m) hp).trans (fetch_above_top hp).symm,
      (fetchAccesses_outside (s := s.withMem m) hp).trans (fetchAccesses_outside hp).symm⟩

/-- What an instruction raises at execution does not depend on memory. -/
theorem execCause_withMem (s : State) (m : List Host.Cell) (i : Instr) :
    execCause (s.withMem m) i = execCause s i := rfl

theorem branch_withMem (s : State) (m : List Host.Cell) (ra : RegIx) (taken : Bool) :
    branch (s.withMem m) ra taken = (branch s ra taken).withMem m := by
  cases taken <;> rfl

/-- An instruction depends on memory only through the byte that POP reads. -/
theorem Completes.withMem {i : Instr} (hc : Completes s i t) (h : Holds m (execAccesses i s)) :
    execAccesses i (s.withMem m) = execAccesses i s ∧
      Completes (s.withMem m) i (t.withMem (replay (execAccesses i s) m)) := by
  cases hc with
  | hlt => exact ⟨rfl, .hlt⟩
  | ldi b ha => exact ⟨rfl, .ldi b ha⟩
  | prn ha => exact ⟨rfl, .prn ha⟩
  | push ha h0 =>
    rw [execAccesses_push ha h0]
    exact ⟨execAccesses_push (s := s.withMem m) ha h0, .push ha h0⟩
  | pop ha htop =>
    rw [execAccesses_pop ha htop] at h ⊢
    have hv : Memory.read m s.sp.toNat = byteAt s s.sp.toNat := (holds_cons_read.mp h).1
    have haccess := execAccesses_pop (s := s.withMem m) ha htop
    have hpop := Completes.pop (s := s.withMem m) ha htop
    rw [show byteAt (s.withMem m) (s.withMem m).sp.toNat = byteAt s s.sp.toNat from hv] at haccess
    rw [show Memory.read (s.withMem m).mem (s.withMem m).sp.toNat = byteAt s s.sp.toNat from hv] at hpop
    exact ⟨haccess, hpop⟩
  | jmp ha => exact ⟨rfl, .jmp ha⟩
  | jeq ha => exact ⟨rfl, branch_withMem s m _ _ ▸ .jeq ha⟩
  | jne ha => exact ⟨rfl, branch_withMem s m _ _ ▸ .jne ha⟩
  | add ha hb => exact ⟨rfl, .add ha hb⟩
  | mul ha hb => exact ⟨rfl, .mul ha hb⟩
  | cmp ha hb => exact ⟨rfl, .cmp ha hb⟩

/-- The instruction at pc is the one that the same bytes hold in the other memory. -/
theorem Fetched.withMem {i : Instr} (hi : Fetched s i) (h : Holds m (fetchAccesses s)) : Fetched (s.withMem m) i :=
  fetched_of_fetch ((fetch_withMem h).1.trans hi.fetch_eq)

/-- The first cause depends on memory only through the bytes that the fetch reads. -/
theorem firstCause_withMem (h : Holds m (fetchAccesses s)) : firstCause (s.withMem m) = firstCause s := by
  have hfetch := (fetch_withMem h).1
  cases hf : fetch s with
  | ok i =>
    have hi := fetched_of_fetch hf
    rw [(hi.withMem h).firstCause_eq, hi.firstCause_eq, execCause_withMem]
  | error r => rw [firstCause_of_fetch_error hf, firstCause_of_fetch_error (hfetch.trans hf)]

end

/-! ## PUSH, and the step that completes or raises -/

/-- A PUSH lies at pc if its opcode byte and its operand byte lie inside the memory. -/
theorem fetched_push {s : State} (h : runsOpcode s 0x45) (hp : opAddr s < 255) :
    Fetched s (.push (byteAt s (opAddr s + 1))) := by
  obtain ⟨-, -, hop⟩ := h
  exact ⟨Nat.succ_lt_succ hp, by simp [encode, Instr.format, Format.operandCount, hop]⟩

/-- A step without a cause is what completes the instruction at pc. -/
theorem Completes.step {s t : State} {i : Instr} (hr : s.run = .running) (hi : Fetched s i) (h : Completes s i t) :
    step s = .next t := (step_of_fetch_ok hr hi.fetch_eq).trans h.exec

/-- A step with a cause raises it. -/
theorem step_raises {s : State} {r : Raise} (hr : s.run = .running) (h : firstCause s = some r) :
    step s = .next (s.raise r) := by
  cases hf : fetch s with
  | ok i =>
    rw [step_of_fetch_ok hr hf]
    exact exec_raises ((fetched_of_fetch hf).firstCause_eq ▸ h)
  | error r' =>
    obtain rfl := Option.some.inj ((firstCause_of_fetch_error hf).symm.trans h)
    exact step_of_fetch_error hr hf

/-- PUSH that completes: R7 and the byte stored there, and the pc past the instruction (41_stack.md R110). -/
theorem Completes.push_effect {s t : State} {a : Byte} (h : Completes s (.push a) t) (ha : a.toNat < 8) :
    t.sp.toNat = pushAddr s ∧ t.pc = s.npc 1 ∧
      byteAt t (pushAddr s) = (s.setSp (s.sp - 1)).reg (regIx a ha) := by
  cases h
  exact ⟨congrArg BitVec.toNat (State.sp_setSp s (s.sp - 1)), rfl, Memory.read_write_self ..⟩

/-- PUSH's address with R7 above 0: the number below R7, with no wrap (20_memory.md R63). -/
theorem pushAddr_eq {s : State} (h0 : s.sp ≠ 0) : pushAddr s = s.sp.toNat - 1 :=
  BitVec.toNat_sub_of_le (BitVec.le_def.mpr (Nat.one_le_iff_ne_zero.mpr (by simpa [← BitVec.toNat_inj] using h0)))

/-- The byte that PUSH stores: the register after the decrement of R7 (41_stack.md R113). -/
theorem reg_after_predecrement (s : State) {a : Byte} (ha : a.toNat < 8) :
    (s.setSp (s.sp - 1)).reg (regIx a ha) = if a = 7 then s.x[7] - 1 else s.x[a.toNat] := by
  have h7 : regIx a ha = 7 ↔ a = 7 := by
    rw [Fin.ext_iff, ← BitVec.toNat_inj]
    rfl
  rw [State.setSp, State.reg_setReg]
  simp only [h7]
  rfl

end Sys2Proof.Machine

namespace Sys2Proof.Proofs

open Sys2Proof.Machine Sys2Proof.Claims

/-- Settles O38: the fetch reads the bytes of the instruction at pc, and an instruction that completes adds its own
access. -/
theorem accessesOfEachInstruction : Obligations.AccessesOfEachInstruction := by
  intro s t i rest hr hd h hf
  have hi := fetched_of_decode_window hd
  rw [step_of_fetch_ok hr hi.fetch_eq] at h
  obtain ⟨-, hc⟩ | ⟨r, -, rfl⟩ := exec_cases h
  · rw [stepAccesses_of_fetched hr hi, hi.fetchAccesses_eq]
    congr 1
    cases hc with
    | push ha h0 =>
      obtain ⟨hsp, -, hbyte⟩ := (Completes.push ha h0).push_effect ha
      show _ = [Access.write _ _]
      rw [hsp, hbyte, execAccesses_push ha h0]
    | pop ha htop => exact execAccesses_pop ha htop
    | _ => rfl
  · exact absurd rfl hf

/-- Settles O39: a fetch only reads, inside the memory, and of the instructions that complete PUSH alone writes, once,
at R7. -/
theorem memoryChangesOnlyThroughPort : Obligations.MemoryChangesOnlyThroughPort := by
  intro s t h
  have hr := running_of_step h
  obtain ⟨-, i, hi, hc⟩ | ⟨r, hcause, rfl⟩ := step_cases h
  · rw [stepAccesses_of_fetched hr hi, replay_fetchAccesses_append, filter_isWrite_fetchAccesses_append,
      List.forall_mem_append]
    have hfetch : ∀ x ∈ fetchAccesses s, x.addr ≤ 255 := fun _ => addr_le_of_mem_fetchAccesses
    obtain ⟨a, v, rfl, hwrite, hm⟩ | ⟨hm, hnone | hread⟩ := hc.execAccesses_cases
    · have haddr : pushAddr s ≤ 255 := Nat.le_of_lt_succ (pushAddr_lt s)
      rw [hwrite]
      exact ⟨hm, ⟨hfetch, List.forall_mem_singleton.mpr haddr⟩, Nat.le_refl 1, fun _ => hi.runs hr rfl⟩
    · rw [hnone]
      exact ⟨hm, ⟨hfetch, by simp⟩, by simp, by simp⟩
    · have haddr : s.sp.toNat ≤ 255 := Nat.le_of_lt_succ s.sp.isLt
      rw [hread]
      exact ⟨hm, ⟨hfetch, List.forall_mem_singleton.mpr haddr⟩, by simp [isWrite], by simp [isWrite]⟩
  · rw [stepAccesses_of_firstCause hr hcause, ← List.append_nil (fetchAccesses s), replay_fetchAccesses_append,
      filter_isWrite_fetchAccesses_append, List.append_nil]
    exact ⟨rfl, fun _ => addr_le_of_mem_fetchAccesses, by simp, by simp⟩

/-- Settles O40: the fetch, the first cause and the instruction see the same bytes. -/
theorem stepDependsOnlyOnBytesRead : Obligations.StepDependsOnlyOnBytesRead := by
  intro s t m h hm
  have hr := running_of_step h
  have hr' : (s.withMem m).run = .running := hr
  obtain ⟨-, i, hi, hc⟩ | ⟨r, hcause, rfl⟩ := step_cases h
  · rw [stepAccesses_of_fetched hr hi] at hm ⊢
    obtain ⟨hfetch, hexec⟩ := holds_append.mp hm
    have hi' := hi.withMem hfetch
    obtain ⟨haccesses, hc'⟩ := hc.withMem hexec
    rw [replay_fetchAccesses_append]
    refine ⟨?_, hc'.step hr' hi'⟩
    exact (stepAccesses_of_fetched hr' hi').trans (by rw [(fetch_withMem hfetch).2, haccesses])
  · rw [stepAccesses_of_firstCause hr hcause] at hm ⊢
    have hcause' := (firstCause_withMem hm).trans hcause
    refine ⟨(stepAccesses_of_firstCause hr' hcause').trans (fetch_withMem hm).2, ?_⟩
    rw [replay_of_reads fun _ => isWrite_of_mem_fetchAccesses]
    exact step_raises hr' hcause'

/-- Settles O41: PUSH stores the byte at R7 - 1, which is p + 2, where the pc is after it. -/
theorem pushedByteIsFetchedNext : Obligations.PushedByteIsFetchedNext := by
  intro s t a ha hop hp hb hsp h
  have hi : Fetched s (.push a) := hb ▸ fetched_push hop hp
  have hsp' : s.sp.toNat = opAddr s + 3 := hsp
  have h0 : s.sp ≠ 0 := fun h0 => by simp [h0] at hsp'
  have hcause : firstCause s = none := hi.firstCause_eq.trans (checkReg_eq_none.mpr ⟨ha, if_neg h0⟩)
  obtain ⟨j, hj, hc⟩ := completes_of_step h hcause
  obtain rfl := hi.unique hj
  obtain ⟨-, hpc, hbyte⟩ := hc.push_effect ha
  have hp' : opAddr t = pushAddr s := by
    rw [opAddr, hpc, State.npc_toNat (Nat.succ_lt_succ hp), pushAddr_eq h0, hsp']
    rfl
  refine ⟨?_, fun hone => ?_⟩
  · rw [hp', hbyte, reg_after_predecrement]
  · have hrt : t.run = .running := by rw [hc.run_eq, if_neg (by simp), hop.1]
    have hhlt : runsOpcode t 0x01 := ⟨hrt, hp' ▸ Nat.le_of_lt_succ (pushAddr_lt s), hone⟩
    exact Completes.hlt.step hrt ((fetched_hlt_iff hrt).mpr hhlt)

/-- Settles O46: the two branches of the port's operations. -/
theorem memoryPortContract : Obligations.MemoryPortContract := by
  intro s addr v
  refine ⟨fun h => ?_, fun h => ?_⟩
  · have hout : ¬ addr < Config.memSize := Nat.not_lt.mpr h
    refine ⟨memRead_outside hout, memWrite_outside v hout, fun h512 => ?_⟩
    rw [BitVec.toNat_ofNat, Nat.mod_eq_of_lt h512]
  · have hin : addr < Config.memSize := Nat.lt_succ_of_le h
    refine ⟨memRead_inside hin, _, memWrite_inside v hin, rfl, ?_, fun other hne => ?_⟩
    · rw [memRead_inside hin, Memory.read_write_self]
    · simp only [State.memRead, Memory.read_write_of_ne _ v hne]

end Sys2Proof.Proofs
end

section
/-! SUPPORT. The statements of 30_encoding.md. The decoder and the fetch were settled with 10_state.md; what is added
here is that an instruction's register checks are those of its register operands in order, so that its first bad one is
what it raises, and that every instruction answers a next state. -/

namespace Sys2Proof.Machine

/-! ## The register check, and the answer of every instruction -/

/-- The checks of an instruction are those of its register operands in order, then the stack's. -/
theorem execCause_eq_foldr (s : State) (i : Instr) :
    ∃ stackCause, execCause s i = i.regOperands.foldr checkReg stackCause := by
  cases i <;> exact ⟨_, rfl⟩

/-- Of a list of register operands the first of 8 or more is raised, whatever checks come after the list. -/
theorem foldr_checkReg_of_find {l : List Byte} {a : Byte} (rest : Option Raise)
    (h : l.find? (fun a => 8 ≤ a.toNat) = some a) : l.foldr checkReg rest = some (Raise.invalidRegister a) := by
  induction l with
  | nil => cases h
  | cons b l ih =>
    by_cases hb : b.toNat < 8
    · have hl : l.find? (fun a => 8 ≤ a.toNat) = some a := by simpa [Nat.not_le.mpr hb] using h
      rw [List.foldr_cons, ih hl, checkReg, if_pos hb]
    · obtain rfl : b = a := by simpa [Nat.not_lt.mp hb] using h
      rw [List.foldr_cons, checkReg, if_neg hb]

/-- The first register operand of 8 or more is the cause of the instruction (30_encoding.md R92). -/
theorem execCause_of_bad_register {s : State} {i : Instr} {a : Byte}
    (h : i.regOperands.find? (fun a => 8 ≤ a.toNat) = some a) :
    execCause s i = some (Raise.invalidRegister a) := by
  obtain ⟨stackCause, hcause⟩ := execCause_eq_foldr s i
  exact hcause.trans (foldr_checkReg_of_find stackCause h)

/-- Every instruction answers a next state: it completes, or it raises its cause. -/
theorem exec_answers_next (s : State) (i : Instr) : ∃ t, exec i s = .next t := by
  cases hc : execCause s i with
  | none =>
    obtain ⟨t, ht⟩ := exists_completes hc
    exact ⟨t, ht.exec⟩
  | some r => exact ⟨_, exec_raises hc⟩

end Sys2Proof.Machine

namespace Sys2Proof.Proofs

open Sys2Proof.Machine Sys2Proof.Claims

/-- Settles O1: decoding inverts encoding, instruction by instruction. -/
theorem decodeOfEncode : Obligations.DecodeOfEncode := decode_encode_append

/-- Settles O2: the opcode is one of the table, and what it takes from the front are its operands. -/
theorem encodeOfDecode : Obligations.EncodeOfDecode := fun _ _ _ => eq_encode_append_of_decode

/-- Settles O3: each word is the encoding of its instruction. -/
theorem opcodeWordsDecode : Obligations.OpcodeWordsDecode :=
  ⟨decode_encode_append .hlt [], decode_encode_append (.ldi 3 255) [], decode_encode_append (.prn 7) [],
    decode_encode_append (.push 1) [], decode_encode_append (.pop 2) [], decode_encode_append (.jmp 3) [],
    decode_encode_append (.jeq 4) [], decode_encode_append (.jne 5) [], decode_encode_append (.add 1 6) [],
    decode_encode_append (.mul 2 5) [], decode_encode_append (.cmp 6 0) []⟩

/-- Settles O4: no opcode of the table matches; the counts evaluate the decoder at the 256 bytes. -/
theorem illegalOpcodesRejected : Obligations.IllegalOpcodesRejected := by
  refine ⟨fun op rest hop => decode_of_not_isOpcode rest ?_, rfl, rfl, rfl⟩
  simpa [← isOpcode_iff] using hop

/-- Settles O5: the instruction that the window decodes to is the one that the fetch answers. -/
theorem stepRunsDecodedInstruction : Obligations.StepRunsDecodedInstruction :=
  fun _ _ _ hr h => step_of_fetch_ok hr (fetched_of_decode_window h).fetch_eq

/-- Settles O7: a fetch answers an instruction, which answers a next state, or it raises. -/
theorem runningAlwaysSteps : Obligations.RunningAlwaysSteps := by
  refine ⟨fun i s => exec_answers_next s i, fun s hr => ?_⟩
  cases hf : fetch s with
  | ok i =>
    rw [step_of_fetch_ok hr hf]
    exact exec_answers_next s i
  | error r => exact ⟨_, step_of_fetch_error hr hf⟩

/-- Settles O25: the first bad register operand is the cause, whatever the stack's check says. -/
theorem badRegisterRaises : Obligations.BadRegisterRaises :=
  fun _ _ _ h => exec_raises (execCause_of_bad_register h)

end Sys2Proof.Proofs
end

section
/-! SUPPORT. The statements of 40_basic.md. A step that runs a given opcode has one of three ends: its operand bytes
would lie above the memory, a register operand is bad, or the instruction of those bytes lies at pc and completes. Each
is said once for every opcode, and cited for HLT, LDI and PRN. -/

namespace Sys2Proof.Machine

open Sys2Proof.Claims

/-- The pc past an instruction of n operand bytes, as a number (10_state.md R27). -/
theorem State.npc_eq_ofNat (s : State) (n : Nat) : s.npc n = BitVec.ofNat 9 (opAddr s + (1 + n)) := by
  rw [BitVec.ofNat_add, BitVec.ofNat_toNat, BitVec.setWidth_eq, State.npc]

/-- The opcode and one operand byte inside the memory: the instruction that they encode lies at pc. -/
theorem fetched_of_bytes_one {s : State} {i : Instr} {op : Byte} (h : runsOpcode s op) (hp : opAddr s < 255)
    (hi : encode i = [op, byteAt s (opAddr s + 1)]) : Fetched s i := by
  have hn : i.format.operandCount = 1 := by simpa [hi] using (length_encode i).symm
  obtain ⟨-, -, hop⟩ := h
  refine ⟨?_, ?_⟩
  · rw [hn]
    exact Nat.succ_lt_succ hp
  · rw [hi, hn, ← hop]
    rfl

/-- The opcode and two operand bytes inside the memory: the instruction that they encode lies at pc. -/
theorem fetched_of_bytes_two {s : State} {i : Instr} {op : Byte} (h : runsOpcode s op) (hp : opAddr s < 254)
    (hi : encode i = [op, byteAt s (opAddr s + 1), byteAt s (opAddr s + 2)]) : Fetched s i := by
  have hn : i.format.operandCount = 2 := by simpa [hi] using (length_encode i).symm
  obtain ⟨-, -, hop⟩ := h
  refine ⟨?_, ?_⟩
  · rw [hn]
    exact Nat.add_lt_add_right hp 2
  · rw [hi, hn, ← hop]
    rfl

/-- A running machine whose pc is 256 or above raises OutOfRange of it (30_encoding.md R91). -/
theorem stepRaises_pc_above_top {s : State} (hr : s.run = .running) (hp : 256 ≤ opAddr s) :
    stepRaises s .outOfRange (BitVec.ofNat 9 (opAddr s)) :=
  step_raises hr (firstCause_above_top (Nat.not_lt.mpr hp))

/-- A valid opcode whose operand bytes would lie above the memory raises OutOfRange of 256 (30_encoding.md R91). -/
theorem stepRaises_operands_above_top {s : State} {op : Byte} (h : runsOpcode s op) (hop : isOpcode op = true)
    (htop : 256 ≤ opAddr s + opcodeCount op) : stepRaises s .outOfRange 256 := by
  obtain ⟨hr, hp, rfl⟩ := h
  exact step_raises hr (firstCause_operands_above_top (Nat.lt_succ_of_le hp) hop htop)

/-- The first register operand of 8 or more of the instruction at pc is raised (30_encoding.md R92). -/
theorem Fetched.stepRaises_invalidRegister {s : State} {i : Instr} {a : Byte} (hi : Fetched s i)
    (hr : s.run = .running) (ha : i.regOperands.find? (fun a => 8 ≤ a.toNat) = some a) :
    stepRaises s .invalidRegister (zext9 a) :=
  step_raises hr (hi.firstCause_eq.trans (execCause_of_bad_register ha))

/-- HLT accesses the memory for its opcode byte only (20_memory.md R64). -/
theorem stepAccesses_of_runsOpcode_hlt {s : State} (h : runsOpcode s 0x01) :
    stepAccesses s = [.read (opAddr s) 0x01] := by
  have hi := (fetched_hlt_iff h.1).mpr h
  obtain ⟨hr, -, hop⟩ := h
  rw [stepAccesses_of_fetched hr hi, hi.fetchAccesses_eq, ← hop]
  rfl

end Sys2Proof.Machine

namespace Sys2Proof.Proofs

open Sys2Proof.Machine Sys2Proof.Claims

/-- Settles O10: HLT has no cause, so that it completes, and in Halted there is no step. -/
theorem hltStep : Obligations.HltStep := by
  obtain ⟨-, -, noAccess⟩ := noStepWhenTerminal
  refine ⟨fun s h => ⟨_, rfl, ?_, fun u hu => ?_, ?_, stepAccesses_of_runsOpcode_hlt h⟩, fun s hr hp => ?_⟩
  · rw [← s.npc_eq_ofNat 0]
    exact Completes.hlt.step h.1 ((fetched_hlt_iff h.1).mpr h)
  · cases running_of_step hu
  · exact (noAccess _ (by simp)).1
  · have := stepRaises_pc_above_top hr hp.ge
    rwa [hp] at this

/-- Settles O11: the operand fetch, then the register check, then the effect. -/
theorem ldiStep : Obligations.LdiStep := by
  refine fun s h => ⟨fun hp => stepRaises_operands_above_top h rfl (Nat.add_le_add_right hp 2), ?_⟩
  rintro hp a b rfl rfl
  have hi : Fetched s (.ldi _ _) := fetched_of_bytes_two h hp rfl
  refine ⟨fun ha => hi.stepRaises_invalidRegister h.1 (by simp [Instr.regOperands, ha]), fun ha => ?_⟩
  rw [← s.npc_eq_ofNat 2]
  exact (Completes.ldi _ ha).step h.1 hi

/-- Settles O12: the operand fetch, then the register check, then the effect. -/
theorem prnStep : Obligations.PrnStep := by
  refine fun s h => ⟨fun hp => stepRaises_operands_above_top h rfl (Nat.add_le_add_right hp.ge 1), ?_⟩
  rintro hp a rfl
  have hi : Fetched s (.prn _) := fetched_of_bytes_one h hp rfl
  refine ⟨fun ha => hi.stepRaises_invalidRegister h.1 (by simp [Instr.regOperands, ha]), fun ha => ?_⟩
  rw [← s.npc_eq_ofNat 1]
  exact (Completes.prn ha).step h.1 hi

end Sys2Proof.Proofs
end

section
/-! SUPPORT. The statements of 41_stack.md. What is added to the rules of 10_state.md is the next state of PUSH and of
POP field by field, with R7 as an operand, and the causes that exhaust the stack; each is said once, and cited at the
step and at `exec`. -/

namespace Sys2Proof.Machine

open Sys2Proof.Claims

/-! ## R7 as an operand -/

/-- The register that an operand byte names is R7 exactly if the byte is 7. -/
theorem regIx_eq_seven_iff {a : Byte} (ha : a.toNat < 8) : regIx a ha = 7 ↔ a = 7 := by
  rw [Fin.ext_iff, ← BitVec.toNat_inj]
  rfl

/-- R7 after a write to the register that an operand names: POP reads it there again (41_stack.md R113). -/
theorem sp_setReg_regIx (s : State) {a : Byte} (ha : a.toNat < 8) (v : Byte) :
    (s.setReg (regIx a ha) v).sp = if a = 7 then v else s.x[7] := by
  rw [State.sp, State.reg_setReg]
  simp only [eq_comm (a := Config.spIndex), regIx_eq_seven_iff]
  rfl

/-- A byte plus one is the byte of the number plus one (00_scope.md R7). -/
theorem add_one_eq_ofNat (v : Byte) : v + 1 = BitVec.ofNat 8 (v.toNat + 1) := rfl

/-- The same with the modulus written out (00_scope.md R7). -/
theorem add_one_eq_ofNat_mod (v : Byte) : v + 1 = BitVec.ofNat 8 ((v.toNat + 1) % 256) := by
  bv_omega

/-! ## The next state -/

/-- PUSH with R7 above 0: the next state (41_stack.md R110, R113). -/
theorem Completes.push_next {s : State} {a : Byte} (ha : a.toNat < 8) (h0 : s.x[7] ≠ 0) :
    Completes s (.push a) { s with
      x := s.x.set 7 (s.x[7] - 1)
      mem := Memory.write s.mem (pushAddr s) (if a = 7 then s.x[7] - 1 else s.x[a.toNat])
      pc := s.npc 1 } := by
  rw [← reg_after_predecrement s ha]
  exact .push ha h0

/-- POP with R7 below 0xF4: the next state (41_stack.md R111, R113). -/
theorem Completes.pop_next {s : State} {a : Byte} (ha : a.toNat < 8) (htop : s.x[7].toNat < 0xF4) :
    Completes s (.pop a) { s with
      x := (s.x.set a.toNat (byteAt s s.x[7].toNat)).set 7 ((if a = 7 then byteAt s s.x[7].toNat else s.x[7]) + 1)
      pc := s.npc 1 } := by
  rw [← sp_setReg_regIx s ha]
  exact .pop ha (BitVec.not_le.mpr (BitVec.lt_def.mpr htop))

/-- R7 written and then set back is as before, whatever other register is written between (41_stack.md R114). -/
theorem set_seven_back (x : Vector Byte 8) {k : Nat} (hk : k < 7) (u v : Byte) :
    ((x.set 7 u).set k v).set 7 x[7] = x.set k v := by
  have h7 : (x.set k v)[7] = x[7] := Vector.getElem_set_ne (by omega) (by omega) hk.ne
  rw [Vector.set_comm u v hk.ne', Vector.set_set, ← h7, Vector.set_getElem_self]

/-! ## Exhaustion of the stack -/

/-- PUSH with R7 = 0 has StackOverflow of 0 as its cause (41_stack.md R112). -/
theorem execCause_push_of_sp_eq_zero {s : State} {a : Byte} (ha : a.toNat < 8) (h0 : s.x[7] = 0) :
    execCause s (.push a) = some { kind := .stackOverflow, info := 0 } := by
  have hsp : s.sp = 0 := h0
  simp only [execCause, checkReg, if_pos ha, hsp]
  rfl

/-- POP with R7 at or above 0xF4 has StackUnderflow of R7 as its cause (41_stack.md R112). -/
theorem execCause_pop_of_sp_ge_top {s : State} {a : Byte} (ha : a.toNat < 8) (htop : 0xF4 ≤ s.x[7].toNat) :
    execCause s (.pop a) = some { kind := .stackUnderflow, info := zext9 s.x[7] } := by
  have hsp : s.sp ≥ Config.stackTop := BitVec.le_def.mpr htop
  simp only [execCause, checkReg, if_pos ha, if_pos hsp]
  rfl

end Sys2Proof.Machine

namespace Sys2Proof.Proofs

open Sys2Proof.Machine Sys2Proof.Claims

/-- Settles O26: each exhaustion is the cause of its instruction, once the register check has passed. -/
theorem stackExhaustionRaises : Obligations.StackExhaustionRaises :=
  fun _ _ ha =>
    ⟨fun h0 => exec_raises (execCause_push_of_sp_eq_zero ha h0), fun htop => exec_raises (execCause_pop_of_sp_ge_top ha htop)⟩

/-- Settles O13: the operand fetch, then the register check, then R7, then the effect. -/
theorem pushStep : Obligations.PushStep := by
  refine fun s h => ⟨fun hp => stepRaises_operands_above_top h rfl (Nat.add_le_add_right hp.ge 1), ?_⟩
  rintro hp a rfl
  have hi : Fetched s (.push _) := fetched_push h hp
  refine ⟨fun ha => hi.stepRaises_invalidRegister h.1 (by simp [Instr.regOperands, ha]), fun ha h0 => ?_,
    fun ha h0 => ?_⟩
  · exact step_raises h.1 (hi.firstCause_eq.trans (execCause_push_of_sp_eq_zero ha h0))
  · have haddr : s.x[7].toNat - 1 = pushAddr s := (pushAddr_eq h0).symm
    rw [← s.npc_eq_ofNat 1, haddr]
    exact (Completes.push_next ha h0).step h.1 hi

/-- Settles O14: the operand fetch, then the register check, then R7, then the effect; POP R7 writes R7 twice. -/
theorem popStep : Obligations.PopStep := by
  refine fun s h => ⟨fun hp => stepRaises_operands_above_top h rfl (Nat.add_le_add_right hp.ge 1), ?_⟩
  rintro hp a hbyte
  have hi : Fetched s (.pop a) := fetched_of_bytes_one h hp (by rw [hbyte]; rfl)
  rw [← s.npc_eq_ofNat 1]
  refine ⟨fun ha => hi.stepRaises_invalidRegister h.1 (by simp [Instr.regOperands, ha]), fun ha htop => ?_,
    fun ha htop h7 => ?_, ?_⟩
  · exact step_raises h.1 (hi.firstCause_eq.trans (execCause_pop_of_sp_ge_top ha htop))
  · have hnext := (Completes.pop_next ha htop).step h.1 hi
    rwa [if_neg h7, add_one_eq_ofNat] at hnext
  · rintro htop rfl
    have hnext := (Completes.pop_next (by decide) htop).step h.1 hi
    rw [if_pos rfl, add_one_eq_ofNat_mod] at hnext
    simpa only [BitVec.reduceToNat, Vector.set_set] using hnext

/-- Settles O42: POP reads the byte that PUSH stored, and moves R7 back up. -/
theorem pushThenPopRestores : Obligations.PushThenPopRestores := by
  intro s a b ha hb h0 htop
  have ha7 : a ≠ 7 := by rintro rfl; exact absurd ha (by decide)
  have hb7 : b ≠ 7 := by rintro rfl; exact absurd hb (by decide)
  have hbelow : (s.x[7] - 1).toNat = s.x[7].toNat - 1 := pushAddr_eq h0
  obtain ⟨t, hpush, hx, hbyte⟩ : ∃ t, Completes s (.push a) t ∧ t.x = s.x.set 7 (s.x[7] - 1) ∧
      byteAt t (s.x[7] - 1).toNat = s.x[a.toNat] :=
    ⟨_, .push_next (Nat.lt_succ_of_lt ha) h0, rfl, (Memory.read_write_self ..).trans (if_neg ha7)⟩
  have hsp : t.x[7] = s.x[7] - 1 := by simp [hx]
  have htop' : t.x[7].toNat < 0xF4 := by rw [hsp, hbelow]; omega
  refine ⟨t, _, hpush.exec, (Completes.pop_next (Nat.lt_succ_of_lt hb) htop').exec, ?_, ?_⟩
  · simp only [hsp, hbyte, if_neg hb7, BitVec.sub_add_cancel]
    rw [hx]
    exact set_seven_back s.x hb _ _
  · rw [← hbelow]
    exact hbyte

end Sys2Proof.Proofs
end

section
/-! SUPPORT. The statements of 42_branch.md. The fetch and the register check of an instruction of one register operand
are said once for every opcode, and a branch by the bit that takes it; JMP, JEQ and JNE each add which bit that is. -/

namespace Sys2Proof.Machine

open Sys2Proof.Claims

/-- JEQ is taken by bit 0 of the flags (42_branch.md R121). -/
theorem jeqTaken_eq (fl : FlagBits) : jeqTaken fl = fl[0] := rfl

/-- JNE is taken by bit 0 of the flags, negated (42_branch.md R122). -/
theorem jneTaken_eq (fl : FlagBits) : jneTaken fl = !fl[0] := rfl

/-- A taken branch: the pc is the register's value, and all else is as before (42_branch.md R120). -/
theorem branch_true (s : State) {a : Byte} (ha : a.toNat < 8) :
    branch s (regIx a ha) true = { s with pc := BitVec.ofNat 9 s.x[a.toNat].toNat } := by
  rw [BitVec.ofNat_toNat]
  rfl

/-- A branch not taken: the pc is past the instruction, and all else is as before (42_branch.md R121, R122). -/
theorem branch_false (s : State) (ra : RegIx) :
    branch s ra false = { s with pc := BitVec.ofNat 9 (opAddr s + 2) } := by
  rw [← s.npc_eq_ofNat 1]
  rfl

/-- A step that completes a branch, by whether it is taken. -/
theorem step_of_completes_branch {s : State} {i : Instr} {a : Byte} {ha : a.toNat < 8} {taken : Bool}
    (h : Completes s i (branch s (regIx a ha) taken)) (hr : s.run = .running) (hi : Fetched s i) :
    (taken = true → step s = .next { s with pc := BitVec.ofNat 9 s.x[a.toNat].toNat }) ∧
      (taken = false → step s = .next { s with pc := BitVec.ofNat 9 (opAddr s + 2) }) := by
  refine ⟨?_, ?_⟩
  · rintro rfl
    rw [← branch_true s ha]
    exact h.step hr hi
  · rintro rfl
    rw [← branch_false s (regIx a ha)]
    exact h.step hr hi

/-- An instruction of one register operand at the step: the operand fetch, then the register check, then what holds of
the instruction that lies at pc with a good register (30_encoding.md R89, R91, R92). -/
theorem step_of_one_register {s : State} {op : Byte} (mk : Byte → Instr) {Effect : ∀ a : Byte, a.toNat < 8 → Prop}
    (h : runsOpcode s op) (henc : ∀ a, encode (mk a) = [op, a]) (hreg : ∀ a, (mk a).regOperands = [a])
    (heffect : ∀ a (ha : a.toNat < 8), Fetched s (mk a) → Effect a ha) :
    (opAddr s = 255 → stepRaises s .outOfRange 256) ∧
      (opAddr s < 255 → ∀ a : Byte, byteAt s (opAddr s + 1) = a →
        (a.toNat ≥ 8 → stepRaises s .invalidRegister (zext9 a)) ∧ ∀ ha : a.toNat < 8, Effect a ha) := by
  refine ⟨fun hp => ?_, ?_⟩
  · obtain ⟨op', operands, hi, hop, hcount, -, -⟩ := encoding_shape (mk 0)
    obtain ⟨rfl, rfl⟩ : op = op' ∧ [0] = operands := by simpa [henc] using hi
    exact stepRaises_operands_above_top h hop (by rw [hp, hcount]; decide)
  · rintro hp a rfl
    have hi : Fetched s (mk _) := fetched_of_bytes_one h hp (henc _)
    exact ⟨fun ha => hi.stepRaises_invalidRegister h.1 (by simp [hreg, ha]), fun ha => heffect _ ha hi⟩

end Sys2Proof.Machine

namespace Sys2Proof.Proofs

open Sys2Proof.Machine Sys2Proof.Claims

/-- Settles O15: JMP is a branch that is always taken. -/
theorem jmpStep : Obligations.JmpStep :=
  fun _ h => step_of_one_register .jmp h (fun _ => rfl) (fun _ => rfl) fun _ ha hi =>
    (step_of_completes_branch (.jmp ha) h.1 hi).1 rfl

/-- Settles O16: the bit that takes JEQ is bit 0 of the flags. -/
theorem jeqStep : Obligations.JeqStep :=
  fun _ h => step_of_one_register .jeq h (fun _ => rfl) (fun _ => rfl) fun _ ha hi =>
    step_of_completes_branch (.jeq ha) h.1 hi

/-- Settles O17: the bit that takes JNE is bit 0 of the flags, negated. -/
theorem jneStep : Obligations.JneStep := by
  refine fun s h => step_of_one_register .jne h (fun _ => rfl) (fun _ => rfl) fun a ha hi => ?_
  have hbranch := step_of_completes_branch (.jne ha) h.1 hi
  rwa [jneTaken_eq, Bool.not_eq_true', Bool.not_eq_false'] at hbranch

/-- Settles O36: the bits that take JEQ and JNE are each other's negation. -/
theorem jeqJneComplement : Obligations.JeqJneComplement := by
  refine fun s a ha => ⟨_, _, (Completes.jeq ha).exec, (Completes.jne ha).exec, ?_⟩
  rw [jeqTaken_eq, jneTaken_eq]
  cases s.fl[0] with
  | true => exact .inl ⟨rfl, rfl, rfl⟩
  | false => exact .inr ⟨rfl, rfl, rfl⟩

end Sys2Proof.Proofs
end

section
/-! SUPPORT. The statements of 43_alu.md. The fetch and the two register checks of an instruction of two register
operands are said once for every opcode; ADD, MUL and CMP each add what their operation computes. -/

namespace Sys2Proof.Machine

open Sys2Proof.Claims

/-! ## What the ALU computes -/

/-- The sum as the byte congruent to it modulo 256 (43_alu.md R130, R131). -/
theorem aluAdd_eq_add (u v : Byte) : aluAdd u v = u + v := by
  apply BitVec.eq_of_toNat_eq
  simp [aluAdd]

/-- The product as the byte congruent to it modulo 256 (43_alu.md R130, R132). -/
theorem aluMul_eq_mul (u v : Byte) : aluMul u v = u * v := by
  apply BitVec.eq_of_toNat_eq
  simp [aluMul]

/-- CMP's flags by the comparison of the two numbers (43_alu.md R133). -/
theorem cmpFlags_eq_ite_toNat (u v : Byte) :
    cmpFlags u v = if u.toNat = v.toNat then 0b001 else if u.toNat > v.toNat then 0b010 else 0b100 := by
  simp only [BitVec.toNat_inj]
  rfl

/-- Each bit of CMP's flags tells one outcome of the comparison (10_state.md R29). -/
theorem cmpFlags_bits (u v : Byte) :
    ((cmpFlags u v)[0] = true ↔ u = v) ∧ ((cmpFlags u v)[1] = true ↔ u.toNat > v.toNat) ∧
      ((cmpFlags u v)[2] = true ↔ u.toNat < v.toNat) := by
  obtain ⟨hE, hG, hL⟩ := cmpFlags_iff u v
  rw [← hE, ← hG, ← hL]
  obtain ⟨-, hf⟩ | ⟨-, hf⟩ | ⟨-, hf⟩ := cmpFlags_cases u v <;> rw [hf] <;> decide

/-! ## Two register operands at the step -/

/-- The opcode of an instruction is of the table, and counts its operand bytes (30_encoding.md R82). -/
theorem opcode_of_encode {i : Instr} {op : Byte} {operands : List Byte} (h : encode i = op :: operands) :
    isOpcode op = true ∧ opcodeCount op = operands.length := by
  obtain ⟨op', operands', hi, hop, hcount, -, -⟩ := encoding_shape i
  obtain ⟨rfl, rfl⟩ := List.cons.inj (h.symm.trans hi)
  exact ⟨hop, hcount⟩

/-- An instruction of two register operands at the step: the operand fetch, then the register check of a, then that of
b, then what holds of the instruction that lies at pc with good registers (30_encoding.md R89, R91, R92). -/
theorem step_of_two_registers {s : State} {op : Byte} (mk : Byte → Byte → Instr)
    {Effect : ∀ a b : Byte, a.toNat < 8 → b.toNat < 8 → Prop}
    (h : runsOpcode s op) (henc : ∀ a b, encode (mk a b) = [op, a, b]) (hreg : ∀ a b, (mk a b).regOperands = [a, b])
    (heffect : ∀ a b (ha : a.toNat < 8) (hb : b.toNat < 8), Fetched s (mk a b) → Effect a b ha hb) :
    (opAddr s ≥ 254 → stepRaises s .outOfRange 256) ∧
      (opAddr s < 254 → ∀ a b : Byte, byteAt s (opAddr s + 1) = a → byteAt s (opAddr s + 2) = b →
        (a.toNat ≥ 8 → stepRaises s .invalidRegister (zext9 a)) ∧
        (a.toNat < 8 → b.toNat ≥ 8 → stepRaises s .invalidRegister (zext9 b)) ∧
        ∀ (ha : a.toNat < 8) (hb : b.toNat < 8), Effect a b ha hb) := by
  refine ⟨fun hp => ?_, ?_⟩
  · obtain ⟨hop, hcount⟩ := opcode_of_encode (henc 0 0)
    exact stepRaises_operands_above_top h hop (hcount ▸ Nat.add_le_add_right hp 2)
  · rintro hp a b rfl rfl
    have hi : Fetched s (mk _ _) := fetched_of_bytes_two h hp (henc _ _)
    refine ⟨fun ha => ?_, fun ha hb => ?_, fun ha hb => heffect _ _ ha hb hi⟩
    · exact hi.stepRaises_invalidRegister h.1 (by simp [hreg, ha])
    · exact hi.stepRaises_invalidRegister h.1 (by simp [hreg, Nat.not_le.mpr ha, hb])

end Sys2Proof.Machine

namespace Sys2Proof.Proofs

open Sys2Proof.Machine Sys2Proof.Claims

/-- Settles O18: the operand fetch, then the register checks, then the sum as R131 writes it. -/
theorem addStep : Obligations.AddStep := by
  refine fun s h => step_of_two_registers .add h (fun _ _ => rfl) (fun _ _ => rfl) fun a b ha hb hi => ?_
  rw [← s.npc_eq_ofNat 2]
  exact (Completes.add ha hb).step h.1 hi

/-- Settles O19: the operand fetch, then the register checks, then the product as R132 writes it. -/
theorem mulStep : Obligations.MulStep := by
  refine fun s h => step_of_two_registers .mul h (fun _ _ => rfl) (fun _ _ => rfl) fun a b ha hb hi => ?_
  rw [← s.npc_eq_ofNat 2]
  exact (Completes.mul ha hb).step h.1 hi

/-- Settles O20: the operand fetch, then the register checks, then the comparison as numbers. -/
theorem cmpStep : Obligations.CmpStep := by
  refine fun s h => step_of_two_registers .cmp h (fun _ _ => rfl) (fun _ _ => rfl) fun a b ha hb hi => ?_
  rw [← s.npc_eq_ofNat 2, ← cmpFlags_eq_ite_toNat]
  exact (Completes.cmp ha hb).step h.1 hi

/-- Settles O24: the numbers modulo 256 are the word operations, and each flag bit tells one outcome. -/
theorem aluInstructionsComplete : Obligations.AluInstructionsComplete := by
  refine fun s a b ha hb => ⟨?_, ?_, cmpFlags s.x[a.toNat] s.x[b.toNat], ?_, cmpFlags_bits _ _⟩
  · rw [← aluAdd_eq_add]
    exact (Completes.add ha hb).exec
  · rw [← aluMul_eq_mul]
    exact (Completes.mul ha hb).exec
  · exact (Completes.cmp ha hb).exec

end Sys2Proof.Proofs
end

section
/-! SUPPORT. The statements of 60_exceptions.md. A running step raises the first cause, or completes the instruction at
pc; an instruction that completes never ends in Faulted, so that run state tells the two apart. -/

namespace Sys2Proof.Machine

open Sys2Proof.Claims

/-! ## The run state tells a fatal error from a completed instruction -/

/-- An instruction that completes in the running machine takes no fatal error (60_exceptions.md R152). -/
theorem Completes.run_ne_faulted {s t : State} {i : Instr} (h : Completes s i t) (hr : s.run = .running) :
    t.run ≠ .faulted := by
  by_cases hi : i = .hlt <;> simp [h.run_eq, hi, hr]

/-- Without a cause, an instruction lies at pc and completes (60_exceptions.md R153). -/
theorem exists_completes_of_firstCause {s : State} (h : firstCause s = none) :
    ∃ i t, Fetched s i ∧ Completes s i t := by
  cases hf : fetch s with
  | ok i =>
    have hi := fetched_of_fetch hf
    obtain ⟨t, ht⟩ := exists_completes (hi.firstCause_eq.symm.trans h)
    exact ⟨i, t, hi, ht⟩
  | error r => cases h.symm.trans (firstCause_of_fetch_error hf)

/-- A step that ends in Faulted is nothing but the raise of a fatal error (60_exceptions.md R152). -/
theorem exists_raise_of_step_faulted {s t : State} (h : step s = .next t) (hf : t.run = .faulted) :
    ∃ r, t = s.raise r := by
  obtain ⟨-, i, -, hc⟩ | ⟨r, -, ht⟩ := step_cases h
  · exact absurd hf (hc.run_ne_faulted (running_of_step h))
  · exact ⟨r, ht⟩

end Sys2Proof.Machine

namespace Sys2Proof.Proofs

open Sys2Proof.Machine Sys2Proof.Claims

/-- Settles O8: the step raises its first cause; without one the instruction at pc completes. -/
theorem firstCauseIsRaised : Obligations.FirstCauseIsRaised := by
  refine fun s hr => ⟨fun r hcause => step_raises hr hcause, fun hnone => ?_⟩
  obtain ⟨i, t, hi, hc⟩ := exists_completes_of_firstCause hnone
  exact ⟨t, hc.step hr hi, hc.run_ne_faulted hr, hc.fault_eq⟩

/-- Settles O9: a step that ends in Faulted is a raise, which writes only the run state and the fault record. -/
theorem faultsArePrecise : Obligations.FaultsArePrecise := by
  intro s t _ h hf
  obtain ⟨r, rfl⟩ := exists_raise_of_step_faulted h hf
  exact ⟨rfl, rfl, rfl, rfl, rfl, _, rfl, rfl⟩

end Sys2Proof.Proofs
end

section
/-! SUPPORT. The statement of 70_reset_and_hazards.md: it is the step of JMP at a target that is pc itself. -/

namespace Sys2Proof.Proofs

open Sys2Proof.Machine Sys2Proof.Claims

/-- Settles O43: JMP writes pc alone, and the value that it writes is the old pc. -/
theorem jmpToItselfHangs : Obligations.JmpToItselfHangs := by
  intro s a ha hop hp hbyte htarget
  have hjump : step s = .next { s with pc := BitVec.ofNat 9 s.x[a.toNat].toNat } :=
    ((jmpStep s hop).2 hp a hbyte).2 ha
  have hpc : BitVec.ofNat 9 s.x[a.toNat].toNat = s.pc := by
    rw [htarget, BitVec.ofNat_toNat, BitVec.setWidth_eq]
  rw [hjump, hpc]

end Sys2Proof.Proofs
end

section
/-! SUPPORT. The statements about one run of `exec` that the sections above leave: the next states of 40_basic.md,
41_stack.md and 42_branch.md, and HLT's frame. Each next state is that of `Completes`, written field by field. -/

namespace Sys2Proof.Machine

/-- `exec` of a branch that completes: the pc alone changes (42_branch.md R120 to R122). -/
theorem exec_of_completes_branch {s : State} {i : Instr} {a : Byte} {ha : a.toNat < 8} {taken : Bool}
    (h : Completes s i (branch s (regIx a ha) taken)) :
    exec i s = .next { s with pc := if taken then zext9 s.x[a.toNat] else s.pc + 2 } :=
  h.exec.trans (congrArg _ (branch_eq_setPc s (regIx a ha) taken))

/-- HLT has no cause, so that what `exec` answers for it is its effect (40_basic.md R100). -/
theorem completes_of_exec_hlt {s t : State} (h : exec .hlt s = .next t) : Completes s .hlt t := by
  obtain ⟨-, hc⟩ | ⟨r, hr, -⟩ := exec_cases h
  · exact hc
  · cases hr

end Sys2Proof.Machine

namespace Sys2Proof.Proofs

open Sys2Proof.Machine Sys2Proof.Claims

/-- Settles O22: the next states of PUSH and POP field by field; POP adds one to whatever R7 reads after its write. -/
theorem stackInstructionsComplete : Obligations.StackInstructionsComplete := by
  refine ⟨fun s a ha h0 => (Completes.push_next ha h0).exec, fun s a ha htop => ?_⟩
  rw [← apply_ite (· + 1)]
  exact (Completes.pop_next ha htop).exec

/-- Settles O23: the bit that takes each branch is true, bit 0 of the flags, and that bit negated. -/
theorem branchesComplete : Obligations.BranchesComplete := by
  refine fun s a ha => ⟨exec_of_completes_branch (.jmp ha), exec_of_completes_branch (.jeq ha), ?_⟩
  have hjne := exec_of_completes_branch (Completes.jne (s := s) ha)
  simpa only [jneTaken_eq, Bool.not_eq_true', ← Bool.not_eq_true, ite_not] using hjne

/-- Settles O28: the frame of `exec`, and the run state and fault record of an HLT that completes. -/
theorem hltFrame : Obligations.HltFrame := by
  intro s t h
  have hc := completes_of_exec_hlt h
  exact ⟨fun _ => exec_reg_eq h id, exec_fl_eq h (by simp), exec_sameMemory h (by simp), exec_out_eq_self h rfl,
    hc.fault_eq, hc.run_eq⟩

/-- Settles O21: the three next states, with the pc past one, three and two bytes. -/
theorem basicInstructionsComplete : Obligations.BasicInstructionsComplete :=
  ⟨fun _ => Completes.hlt.exec, fun _ _ b ha => (Completes.ldi b ha).exec, fun _ _ ha => (Completes.prn ha).exec⟩

end Sys2Proof.Proofs
end
